-- ==== Sys2Proof/Word.lean ====
section
/-! DEFINITION. The byte, which is the only word the ISA has (10_state.md R20, 20_memory.md R42). -/

namespace Sys2Proof

/-- A register value, an operand, or a byte of a stream: 8 bits, unsigned (00_scope.md R9). -/
abbrev Byte := BitVec 8

end Sys2Proof
end

