-- ==== Sys2Proof/Machine/Flags.lean ====
section
/-! DEFINITION. The block has no flags and no condition codes (10_state.md R30). What stands in their place are the two
comparisons of the ALU that JEQ and JGT feed straight into the branch decision (41_register_alu.md R119). -/

namespace Sys2Proof.Machine

/-- `eq(p, q)` (41_register_alu.md R119). -/
def aluEq (p q : Byte) : Bool := p == q

/-- `gtu(p, q)`: greater, as unsigned numbers (41_register_alu.md R119, R124). -/
def aluGtu (p q : Byte) : Bool := q.toNat < p.toNat

end Sys2Proof.Machine
end

