-- ==== Sys2Proof/Syntax.lean ====
section
/-! DEFINITION. The instructions: one constructor for each row of spec/opcode_table.json, with the operand bytes that
30_encoding.md R61 gives a role. An unused slot is no operand (R67). -/

namespace Sys2Proof

inductive Instr where
  /-- SET (41_register_alu.md R120). -/
  | set (dest value : Byte)
  /-- MOV (41_register_alu.md R121). -/
  | mov (dest src : Byte)
  /-- ADD (41_register_alu.md R122). -/
  | add (dest src1 src2 : Byte)
  /-- SUB (41_register_alu.md R123): `src1` is the minuend. -/
  | sub (dest src1 src2 : Byte)
  /-- READ-N (42_io.md R140). -/
  | readN (dest : Byte)
  /-- READ-S (42_io.md R143). -/
  | readS (base count : Byte)
  /-- PUT-S (42_io.md R153). -/
  | putS (base count : Byte)
  /-- PUT-N (42_io.md R150): `fmt` is the format code. -/
  | putN (src fmt : Byte)
  /-- JMP (43_branch.md R170): `target` is an instruction index. -/
  | jmp (target : Byte)
  /-- JEQ (43_branch.md R171). -/
  | jeq (target src1 src2 : Byte)
  /-- JGT (43_branch.md R172). -/
  | jgt (target src1 src2 : Byte)
  /-- CALL (44_call_exit.md R190): `nameBase` is `strAddr`. -/
  | call (dest nameBase : Byte)
  /-- EXIT (44_call_exit.md R197). -/
  | exit (src : Byte)
  deriving DecidableEq, Repr

end Sys2Proof
end

