-- ==== Sys2Proof/WellFormed.lean ====
section
/-! DEFINITION. Which terms of `Instr` stand for a word. -/

namespace Sys2Proof

/-- Every operand byte is accepted in every slot (30_encoding.md R64), with one exception: the format code 0x80 of PUT
selects PUT-S (R66), so no word is PUT-N with it. -/
def Instr.WellFormed : Instr → Bool
  | .set _ _ => true
  | .mov _ _ => true
  | .add _ _ _ => true
  | .sub _ _ _ => true
  | .readN _ => true
  | .readS _ _ => true
  | .putS _ _ => true
  | .putN _ fmt => fmt != 0x80
  | .jmp _ => true
  | .jeq _ _ _ => true
  | .jgt _ _ _ => true
  | .call _ _ => true
  | .exit _ => true

end Sys2Proof
end

