-- ==== Sys2Proof/Decode.lean ====
section
/-! DEFINITION. The binary encoding (30_encoding.md Part A): opcode map, decoder, encoder, executable header. -/

namespace Sys2Proof

/-! ### The opcode map (30_encoding.md R62) and the discriminators of READ and PUT (R65, R66) -/

def opSet  : Byte := 0x01
def opMov  : Byte := 0x02
def opAdd  : Byte := 0x03
def opSub  : Byte := 0x04
def opRead : Byte := 0x08
def opPut  : Byte := 0x09
def opJmp  : Byte := 0x10
def opJeq  : Byte := 0x11
def opJgt  : Byte := 0x12
def opCall : Byte := 0x20
def opExit : Byte := 0x21

def modeReadN : Byte := 0x01
def modeReadS : Byte := 0x02
def modePutS  : Byte := 0x80

/-! ### The decoder -/

/-- What the decoder answers (30_encoding.md R64). -/
inductive Decoded where
  | instr (i : Instr)
  /-- The opcode is not in the map (R63). -/
  | unknownOpcode (op : Byte)
  /-- READ with a mode byte other than 0x01 and 0x02 (R65). -/
  | illegalReadMode (mode : Byte)
  /-- Fewer than four bytes: no word (40_cycle.md R102). -/
  | truncated
  deriving DecidableEq, Repr

/-- The decoder on the four bytes of one word: total, and it reads the word alone (30_encoding.md R64).
A slot without a role is not looked at (R67). -/
def decodeWord (op a b c : Byte) : Decoded :=
  if op = opSet then .instr (.set a b)
  else if op = opMov then .instr (.mov a b)
  else if op = opAdd then .instr (.add a b c)
  else if op = opSub then .instr (.sub a b c)
  else if op = opRead then
    if b = modeReadN then .instr (.readN a)
    else if b = modeReadS then .instr (.readS a c)
    else .illegalReadMode b
  else if op = opPut then
    if b = modePutS then .instr (.putS a c) else .instr (.putN a b)
  else if op = opJmp then .instr (.jmp a)
  else if op = opJeq then .instr (.jeq a b c)
  else if op = opJgt then .instr (.jgt a b c)
  else if op = opCall then .instr (.call a b)
  else if op = opExit then .instr (.exit a)
  else .unknownOpcode op

/-- The decoder on any bytes: the word is the first four, in stream order (20_memory.md R42). -/
def decode : List Byte → Decoded
  | op :: a :: b :: c :: _ => decodeWord op a b c
  | _ => .truncated

/-! ### The encoder -/

/-- The word of an instruction (30_encoding.md R61, R62), unused slots 0 (R67). -/
def encode : Instr → List Byte
  | .set dest value => [opSet, dest, value, 0]
  | .mov dest src => [opMov, dest, src, 0]
  | .add dest src1 src2 => [opAdd, dest, src1, src2]
  | .sub dest src1 src2 => [opSub, dest, src1, src2]
  | .readN dest => [opRead, dest, modeReadN, 0]
  | .readS base count => [opRead, base, modeReadS, count]
  | .putS base count => [opPut, base, modePutS, count]
  | .putN src fmt => [opPut, src, fmt, 0]
  | .jmp target => [opJmp, target, 0, 0]
  | .jeq target src1 src2 => [opJeq, target, src1, src2]
  | .jgt target src1 src2 => [opJgt, target, src1, src2]
  | .call dest nameBase => [opCall, dest, nameBase, 0]
  | .exit src => [opExit, src, 0, 0]

/-! ### The executable container -/

/-- The header `F2 C3 38 01`: magic and version (30_encoding.md R70). -/
def header : List Byte := [0xF2, 0xC3, 0x38, 0x01]

/-- The header check: the first four bytes are the header exactly, so a shorter file fails (30_encoding.md R71). -/
def validHeader (file : List Byte) : Bool := file.take 4 == header

/-- The instruction stream of a valid file: its bytes from offset 4 on, of any length (30_encoding.md R71). -/
def streamOf (file : List Byte) : Option (List Byte) :=
  if validHeader file then some (file.drop 4) else none

/-- The executable of a list of instructions: the header, then every word in order (30_encoding.md R94). -/
def executable (is : List Instr) : List Byte := header ++ is.flatMap encode

/-! ### The opcode table's numbering -/

/-- The stream bytes of a 32-bit word of spec/opcode_table.json, whose number is `op<<24 | A<<16 | B<<8 | C` (20_memory.md R42). -/
def tableWordBytes (nbits w : Nat) : List Byte :=
  let v := w % 2 ^ nbits
  [BitVec.ofNat 8 (v / 2 ^ 24), BitVec.ofNat 8 (v / 2 ^ 16), BitVec.ofNat 8 (v / 2 ^ 8), BitVec.ofNat 8 v]

/-- The instruction the decoder reads from a word of the opcode table, `none` where it refuses it. -/
def decodeTableWord (nbits w : Nat) : Option Instr :=
  match decode (tableWordBytes nbits w) with
  | .instr i => some i
  | .unknownOpcode _ => none
  | .illegalReadMode _ => none
  | .truncated => none

end Sys2Proof
end

