-- ==== Sys2Proof/Config.lean ====
section
/-! DEFINITION. The parameters the spec leaves open (00_scope.md R6), as plain data, and the value it does not state. -/

namespace Sys2Proof

/-- CALL_NAME_ADDRESSING (44_call_exit.md R191): where a CALL's name scan starts. -/
inductive NameAddressing where
  /-- The name starts at register `B`. -/
  | direct
  /-- The name starts at register `x[B]`. -/
  | indirect
  deriving DecidableEq, Repr

/-- One place of a number's text: the number's next digit, or a code that is not one of its digits, in a prefix, a padding,
a sign or a separator. -/
inductive RenderPlace where
  | digit
  | code (c : Byte)
  deriving DecidableEq, Repr

/-- One entry of the PUT_RENDER table: the text PUT-N prints for one format code and one value, as its places.
The digits themselves are no parameter: 42_io.md R151 fixes their radix and letter case, and R152 leaves open what else
stands in the text. -/
structure Rendering where
  fmt    : Byte
  value  : Byte
  places : List RenderPlace
  deriving DecidableEq, Repr

/-- The open parameters of 00_scope.md R6 that the model takes as an argument.
No step changes them. -/
structure Config where
  /-- MAX_CALL_DEPTH: the most live contexts, the root included.
  `none` is no limit (44_call_exit.md R192). -/
  maxCallDepth   : Option Nat
  /-- CALL_NAME_ADDRESSING (44_call_exit.md R191). -/
  nameAddressing : NameAddressing
  /-- PUT_RENDER as its differences from the spec's default: a pair of format code and value that is listed prints
  its digits in the listed places, and every other pair prints the digits alone (42_io.md R152, assumption 7). -/
  putRender      : List Rendering
  deriving DecidableEq, Repr

/-- The values the spec's test vectors take: no depth limit, `direct`, the default digit strings (95_test_vectors.md, Conventions). -/
def Config.default : Config := { maxCallDepth := none, nameAddressing := .direct, putRender := [] }

/-! ### The encoder's exit status -/

/-- The encode-time error kinds (30_encoding.md R99). -/
inductive AssemblyErrorKind where
  | malformedOperand
  | malformedInstruction
  | unknownOpcode
  | undefinedLabel
  | duplicateLabel
  deriving DecidableEq, Repr

/-- An encode-time error with its 1-based source line number (30_encoding.md R93). -/
structure AssemblyError where
  kind : AssemblyErrorKind
  line : Nat
  deriving DecidableEq, Repr

/-- A free value: how far above 1 the encoder's exit status lies.
30_encoding.md R99 says that it is not zero and does not say which it is (assumption 24). -/
opaque Config.failureStatusAboveOne : AssemblyError → Fin 255

end Sys2Proof
end

