-- ==== Sys2Proof/Machine/Operands.lean ====
section
/-! DEFINITION. Operand forms and the values computed from them: the ALU's arithmetic, jump targets, the decimal reading
of a line, the characters of a line, the digit strings of PUT-N. -/

namespace Sys2Proof.Machine

/-! ### The ALU (41_register_alu.md R119) -/

def aluPass (v : Byte) : Byte := v

def aluAdd (p q : Byte) : Byte := BitVec.ofNat 8 ((p.toNat + q.toNat) % 256)

def aluSub (p q : Byte) : Byte := BitVec.ofInt 8 (((p.toNat : Int) - q.toNat) % 256)

/-! ### Operand scaling and ranges -/

/-- The byte offset of a jump target: the instruction index times 4, zero-extended (30_encoding.md R68; 43_branch.md R173). -/
def targetOffset (target : Byte) : Nat := target.toNat * 4

/-- The register range `A` to `A+C-1` of READ-S and PUT-S runs past register 255 (42_io.md R146). -/
def rangeOverruns (base count : Byte) : Bool := 256 < base.toNat + count.toNat

/-- The register index `A+i` of a ranged form. It is used with `A+i ≤ 255` only, so it never wraps (42_io.md R146). -/
def rangeIndex (base : Byte) (i : Nat) : Byte := BitVec.ofNat 8 (base.toNat + i)

/-! ### Numbers in text -/

/-- The whitespace codes of 42_io.md R141: tab, line feed, vertical tab, form feed, carriage return, space. -/
def isSpaceCode (c : Nat) : Bool := (0x09 ≤ c && c ≤ 0x0D) || c == 0x20

/-- Remove leading and trailing whitespace (42_io.md R141 (1)). -/
def trimCodes (s : List Nat) : List Nat :=
  ((s.dropWhile isSpaceCode).reverse.dropWhile isSpaceCode).reverse

/-- The value of a digit character in bases up to 16, letters in either case (00_scope.md R9; 30_encoding.md R83). -/
def digitValue (c : Nat) : Option Nat :=
  if 0x30 ≤ c ∧ c ≤ 0x39 then some (c - 0x30)
  else if 0x61 ≤ c ∧ c ≤ 0x66 then some (c - 0x61 + 10)
  else if 0x41 ≤ c ∧ c ≤ 0x46 then some (c - 0x41 + 10)
  else none

/-- The value of a character as a digit of the base. -/
def digitIn (base : Nat) (c : Nat) : Option Nat :=
  match digitValue c with
  | some d => if d < base then some d else none
  | none => none

/-- Digits read on from a value `acc`, most significant first; `none` at a character that is no digit of the base. -/
def digitsValue (base : Nat) : Nat → List Nat → Option Nat
  | acc, [] => some acc
  | acc, c :: cs =>
    match digitIn base c with
    | some d => digitsValue base (acc * base + d) cs
    | none => none

/-- One or more digits of the base. -/
def parseDigits (base : Nat) : List Nat → Option Nat
  | [] => none
  | c :: cs => digitsValue base 0 (c :: cs)

/-- An optional `+` or `-`, then one or more decimal digits, and nothing else (42_io.md R141 (2), (3); 30_encoding.md R83). -/
def parseSigned : List Nat → Option Int
  | [] => none
  | c :: cs =>
    if c = 0x2D then (parseDigits 10 cs).map fun (n : Nat) => -(n : Int)
    else if c = 0x2B then (parseDigits 10 cs).map fun (n : Nat) => (n : Int)
    else (parseDigits 10 (c :: cs)).map fun (n : Nat) => (n : Int)

/-- `parseDec` (42_io.md R141). -/
def parseDec (s : List Nat) : Option Int := parseSigned (trimCodes s)

/-! ### What READ stores -/

/-- The host's answer to one IN request (00_scope.md R7). -/
inductive InAnswer where
  | line (s : List Nat)
  | eof
  deriving DecidableEq, Repr

/-- The value READ-N stores: the decimal number of the line mod 256, and 0 where the line is no number or there is none
(42_io.md R140, R142). -/
def readNValue : InAnswer → Byte
  | .line s =>
    match parseDec s with
    | some n => BitVec.ofInt 8 (n % 256)
    | none => 0
  | .eof => 0

/-- The value READ-S stores at position `i`: the low 8 bits of the `i`-th character, and 0 past the line's end or
without a line (42_io.md R143–R145). -/
def readSValue (ans : InAnswer) (i : Nat) : Byte :=
  match ans with
  | .line s =>
    match s[i]? with
    | some c => BitVec.ofNat 8 (c % 256)
    | none => 0
  | .eof => 0

/-! ### What PUT prints -/

/-- The digits of a number in a radix, most significant first, with fuel for their count. -/
def radixDigits (radix : Nat) : Nat → Nat → List Nat
  | 0, _ => []
  | fuel + 1, v => if v < radix then [v] else radixDigits radix fuel (v / radix) ++ [v % radix]

/-- The minimal digits of a number in a radix of at least 2, most significant first, and the one digit 0 for 0 (42_io.md R152). -/
def minimalDigits (radix v : Nat) : List Nat := radixDigits radix (v + 1) v

/-- The character code of a digit, hexadecimal letters upper or lower case (00_scope.md R9). -/
def digitCode (upper : Bool) (d : Nat) : Nat :=
  if d < 10 then 0x30 + d else (if upper then 0x41 else 0x61) + (d - 10)

/-- The four ways PUT-N writes a number (42_io.md R151). -/
inductive NumberFormat where
  | decimal
  | hexLower
  | hexUpper
  | binary
  deriving DecidableEq, Repr

/-- The format a code names: `x`, `X`, `b`, and decimal for `d` and for every other code (42_io.md R151). -/
def numberFormat (fmt : Byte) : NumberFormat :=
  if fmt = 0x78 then .hexLower
  else if fmt = 0x58 then .hexUpper
  else if fmt = 0x62 then .binary
  else .decimal

def NumberFormat.radix : NumberFormat → Nat
  | .decimal => 10
  | .hexLower => 16
  | .hexUpper => 16
  | .binary => 2

def NumberFormat.upper : NumberFormat → Bool
  | .decimal => false
  | .hexLower => false
  | .hexUpper => true
  | .binary => false

/-- The spec's default PUT_RENDER: the minimal digits, no prefix, no padding, no sign (42_io.md R152). -/
def defaultRender (fmt value : Byte) : List Byte :=
  (minimalDigits (numberFormat fmt).radix value.toNat).map fun d =>
    BitVec.ofNat 8 (digitCode (numberFormat fmt).upper d)

/-- Digits put into places in order; digits without a place of their own follow at the end, and a place without a digit is
left out, so every digit is printed whatever the places. -/
def fillPlaces : List RenderPlace → List Byte → List Byte
  | [], digits => digits
  | .code c :: places, digits => c :: fillPlaces places digits
  | .digit :: places, [] => fillPlaces places []
  | .digit :: places, d :: digits => d :: fillPlaces places digits

/-- PUT_RENDER (42_io.md R152): the digits of R151 in the configured places of a format code and a value, alone where none
are configured. -/
def putRender (config : Config) (fmt value : Byte) : List Byte :=
  match config.putRender.find? fun r => r.fmt == fmt && r.value == value with
  | some r => fillPlaces r.places (defaultRender fmt value)
  | none => defaultRender fmt value

/-- The code PUT-S emits for a register value: 0 is a space, every other value itself (42_io.md R154). -/
def putSCode (v : Byte) : Byte := if v = 0 then 0x20 else v

end Sys2Proof.Machine
end

