-- ==== Sys2Proof/Machine/State.lean ====
section
/-! DEFINITION. The machine's state as plain data (10_state.md R34), the ports' data beside it, and the reset state. -/

namespace Sys2Proof.Machine

/-- Why a run ended in a fault, with the info recorded (60_exceptions.md R212).
Each is a run-time fault of the machine itself: it is written into the status and the machine stops there. -/
inductive FaultCause where
  /-- The root file fails the header check: raised at launch (70_reset_and_hazards.md R230). -/
  | invalidHeader
  /-- The opcode is not in the map: raised by the dispatch (40_cycle.md R103). -/
  | unknownOpcode (pc : Nat) (op : Byte)
  /-- CALL's child cannot be loaded or fails the header check (44_call_exit.md R193). -/
  | childExecutionError (pc : Nat) (name : List Byte)
  /-- CALL at the depth limit (44_call_exit.md R192). -/
  | callDepthExceeded (pc : Nat) (depth : Nat)
  /-- Fetch of an incomplete last word (40_cycle.md R102). -/
  | truncatedFetch (pc : Nat)
  /-- READ with a mode byte other than 0x01 and 0x02 (30_encoding.md R65). -/
  | illegalReadMode (pc : Nat) (mode : Byte)
  /-- READ-S or PUT-S whose range runs past register 255 (42_io.md R146). -/
  | registerIndexOutOfRange (pc : Nat) (base count : Byte)
  /-- No 0 byte in CALL's name scan (44_call_exit.md R191). -/
  | unterminatedCallName (pc : Nat) (nameBase : Byte)
  deriving DecidableEq, Repr

/-- The fault record (60_exceptions.md R211): kind and info, and the number of live contexts. -/
structure FaultRecord where
  cause : FaultCause
  depth : Nat
  deriving DecidableEq, Repr

/-- The run status (10_state.md R29). -/
inductive RunStatus where
  | running
  | halted (code : Byte)
  | faulted (record : FaultRecord)
  deriving DecidableEq, Repr

/-- One execution context (10_state.md R24): its stream, its program counter, and for a subordinate the register that
receives its status. -/
structure Frame where
  code : List Byte
  pc   : Nat
  dest : Option Byte
  deriving DecidableEq, Repr

/-- The host's side of port IN (00_scope.md R7): the lines it has answered that no READ has consumed yet, oldest first,
and whether it has said `eof` after them.
A line is its character codes, which are naturals of any size.
No line and no `eof` is "the host has not answered" (assumption 3). -/
structure InPort where
  lines : List (List Nat)
  ended : Bool
  deriving DecidableEq, Repr

/-- One file of the host's: the name LOADER is asked for, and the whole file's bytes, header included. -/
structure HostFile where
  name  : List Byte
  bytes : List Byte
  deriving DecidableEq, Repr

/-- The block's state: exactly the tuple of 10_state.md R34.
The configuration and the host's answers are not in it: `Block.step` takes them as arguments. -/
structure Block where
  /-- The shared register file (10_state.md R20, R21). -/
  regs   : Vector Byte 256
  /-- The contexts: the head is active, the last is the root (10_state.md R25). -/
  frames : List Frame
  /-- The codes emitted on OUT, oldest first (10_state.md R33). -/
  out    : List Byte
  /-- The run status (10_state.md R29). -/
  status : RunStatus
  deriving DecidableEq, Repr

/-- What stands outside the block: the host's answers at the ports, and the open parameters (10_state.md R34). -/
structure Environment where
  /-- Port IN (assumption 3). -/
  input  : InPort
  /-- Port LOADER: the host's files (assumption 5). -/
  loader : List HostFile
  /-- The open parameters (assumption 6). -/
  config : Config
  deriving DecidableEq, Repr

/-- What the host's `step`, a function of one argument, is given: the block's state, and the environment beside it.
The block sees the environment through `Block.step`'s arguments only. -/
structure State extends Block, Environment
  deriving DecidableEq, Repr

/-- Why a step has no next state. None of these is a fault of the spec's: those are next states with a faulted status
(60_exceptions.md R210, assumption 1). -/
inductive Fault where
  /-- A step was asked of a machine that has halted or faulted, for which no step is defined (10_state.md R29).
  Raised by `step`, with the process exit status of 00_scope.md R8.
  Safe. -/
  | runEnded (exitStatus : Byte)
  /-- Running with no frame: no run reaches it (assumption 10).
  Raised by whatever reads the active frame.
  Safe. -/
  | noActiveContext
  /-- A subordinate without a `dest` ended: no run reaches it (assumption 10).
  Raised by `endContext`.
  Safe. -/
  | noReturnRegister
  deriving DecidableEq, Repr

/-- Why the model gives a step no meaning. -/
inductive Refusal where
  /-- The instruction has no meaning yet: raised by `exec`'s arms, and by none of them now.
  Safe. -/
  | notModelled (mnemonic : String)
  deriving DecidableEq, Repr

/-- The answer of an instruction or of a step. -/
abbrev Result := Host.Outcome State Fault Refusal

/-- The machine right after reset (70_reset_and_hazards.md R231): the launch of a file that holds the header alone, with
no answer of the host's at the ports yet (assumptions 3, 5, 6, 8, 9). -/
def State.reset : State where
  regs   := Vector.replicate 256 0
  frames := [{ code := [], pc := 0, dest := none }]
  out    := []
  status := .running
  input  := { lines := [], ended := false }
  loader := []
  config := Config.default

end Sys2Proof.Machine
end

