-- ==== Sys2Proof/Machine/Ops.lean ====
section
/-! DEFINITION. The operations instructions share: registers, the program counter, the ports, faults, the start and the
end of a context. -/

namespace Sys2Proof.Machine

/-! ### Registers (10_state.md R20, 00_scope.md R10) -/

/-- `x[i]`. -/
def State.readReg (s : State) (i : Byte) : Byte := s.regs[i.toNat]'i.isLt

/-- `x[i] <- v`. -/
def State.writeReg (s : State) (i v : Byte) : State := { s with regs := s.regs.set i.toNat v i.isLt }

/-- `x[A+i] <- v i` for `i` in `0 .. n-1`. -/
def State.writeRange (s : State) (base : Byte) (v : Nat → Byte) : Nat → State
  | 0 => s
  | n + 1 => (s.writeRange base v n).writeReg (rangeIndex base n) (v n)

/-- `x[A], …, x[A+C-1]`. -/
def State.readRange (s : State) (base count : Byte) : List Byte :=
  (List.range count.toNat).map fun i => s.readReg (rangeIndex base i)

/-! ### Faults (60_exceptions.md R210): the one entry, and no return (R216) -/

/-- `raise`: the status becomes the fault record with the call depth, and nothing else changes. -/
def raise (cause : FaultCause) (s : State) : Result :=
  .next { s with status := .faulted { cause := cause, depth := s.frames.length } }

/-- The process exit status of a run status (00_scope.md R8), `none` while it is running. -/
def RunStatus.exitStatus : RunStatus → Option Byte
  | .running => none
  | .halted code => some code
  | .faulted _ => some 1

/-! ### The program counter sequencer (40_cycle.md R104) -/

/-- Set the active context's program counter. -/
def setPc (pc : Nat) (s : State) : Result :=
  match s.frames with
  | [] => .fault .noActiveContext
  | f :: rest => .next { s with frames := { f with pc := pc } :: rest }

/-- Sequential advance by 4, never wrapping (40_cycle.md R105). -/
def advance (s : State) : Result :=
  match s.frames with
  | [] => .fault .noActiveContext
  | f :: _ => setPc (f.pc + 4) s

/-- The taken and the not-taken next program counter of a jump (43_branch.md R170–R172). -/
def jumpIf (taken : Bool) (target : Byte) (s : State) : Result :=
  if taken then setPc (targetOffset target) s else advance s

/-! ### Instruction memory (00_scope.md R10, 20_memory.md R44) -/

/-- `MemRead(addr, n)`: the bytes `addr` to `addr+n-1` of a stream, fewer at its end. -/
def memRead (code : List Byte) (addr n : Nat) : List Byte := (code.drop addr).take n

/-- The word at a context's program counter. -/
def fetch (f : Frame) : List Byte := memRead f.code f.pc 4

/-! ### Ports (00_scope.md R7) -/

/-- `InLine()`: the next answer of port IN and the state after it, `none` while the host has not answered.
A line is consumed; `eof` stays, since the host has no more lines and never will (42_io.md R142). -/
def inLine (s : State) : Option (InAnswer × State) :=
  match s.input.lines with
  | l :: ls => some (.line l, { s with input := { s.input with lines := ls } })
  | [] => if s.input.ended then some (.eof, s) else none

/-- `Out(ch)` for each code in order. -/
def emit (codes : List Byte) (s : State) : State := { s with out := s.out ++ codes }

/-- `Load(name)`: the host's file of that name, `none` where it has none. -/
def load (s : State) (name : List Byte) : Option (List Byte) :=
  (s.loader.find? fun f => f.name == name).map HostFile.bytes

/-- The host supplies one more input line (70_reset_and_hazards.md R235 (2)). -/
def State.supplyLine (l : List Nat) (s : State) : State :=
  { s with input := { s.input with lines := s.input.lines ++ [l] } }

/-- The host says that it has no more lines (42_io.md R142). -/
def State.endInput (s : State) : State := { s with input := { s.input with ended := true } }

/-- The host changes its files (20_memory.md R51: two CALLs of one name each load anew). -/
def State.setLoader (files : List HostFile) (s : State) : State := { s with loader := files }

/-! ### Contexts (10_state.md R25, 44_call_exit.md) -/

/-- The register where a CALL's name starts (44_call_exit.md R191). -/
def nameStart (s : State) (nameBase : Byte) : Byte :=
  match s.config.nameAddressing with
  | .direct => nameBase
  | .indirect => s.readReg nameBase

/-- The registers from `256 - n` on, up to the first 0; `none` where there is no 0 up to register 255. -/
def nameScan (s : State) : Nat → Option (List Byte)
  | 0 => none
  | n + 1 =>
    let b := s.readReg (BitVec.ofNat 8 (256 - (n + 1)))
    if b = 0 then some [] else (nameScan s n).map (b :: ·)

/-- `callName(B)` (44_call_exit.md R191). -/
def callName (s : State) (nameBase : Byte) : Option (List Byte) :=
  nameScan s (256 - (nameStart s nameBase).toNat)

/-- The depth limit is reached: `MAX_CALL_DEPTH = some d` and `|frames| ≥ d` (44_call_exit.md R192). -/
def depthReached (s : State) : Bool :=
  match s.config.maxCallDepth with
  | some d => d ≤ s.frames.length
  | none => false

/-- Start a subordinate: a frame with the stream, pc 0 and the destination register, on top of the caller (44_call_exit.md R194). -/
def pushContext (code : List Byte) (dest : Byte) (s : State) : State :=
  { s with frames := { code := code, pc := 0, dest := some dest } :: s.frames }

/-- `endContext(code)` (40_cycle.md R106): the root halts the machine; a subordinate is popped, its status written, and
its caller resumed past the CALL. -/
def endContext (code : Byte) (s : State) : Result :=
  match s.frames with
  | [] => .fault .noActiveContext
  | [_] => .next { s with status := .halted code }
  | child :: caller :: rest =>
    match child.dest with
    | none => .fault .noReturnRegister
    | some dest =>
      .next (State.writeReg { s with frames := { caller with pc := caller.pc + 4 } :: rest } dest code)

/-! ### Launch (70_reset_and_hazards.md R230, R231) -/

/-- The launch of a root file, with what the host holds at the ports and the parameters. -/
def State.launch (file : List Byte) (input : InPort) (loader : List HostFile) (config : Config) : State :=
  let blank : State :=
    { regs := Vector.replicate 256 0, frames := [], out := [], status := .running,
      input := input, loader := loader, config := config }
  match streamOf file with
  | some code => { blank with frames := [{ code := code, pc := 0, dest := none }] }
  | none => { blank with status := .faulted { cause := .invalidHeader, depth := 0 } }

/-! ### Placing a word under the program counter -/

/-- A stream with the given bytes at an offset, zero bytes before them where the stream is too short. -/
def placeAt (code : List Byte) (addr : Nat) (bytes : List Byte) : List Byte :=
  code.take addr ++ List.replicate (addr - code.length) 0 ++ bytes ++ code.drop (addr + bytes.length)

/-- The state in which the next step fetches the given bytes: a running machine whose active stream has them at its
program counter (assumption 8). -/
def State.placeWord (s : State) (bytes : List Byte) : State :=
  match s.frames with
  | [] => { s with frames := [{ code := bytes, pc := 0, dest := none }], status := .running }
  | f :: rest => { s with frames := { f with code := placeAt f.code f.pc bytes } :: rest, status := .running }

end Sys2Proof.Machine
end

