-- ==== Sys2Proof/Machine/Branch.lean ====
section
/-! DEFINITION. JMP, JEQ, JGT (43_branch.md). -/

namespace Sys2Proof.Machine

/-- JMP (R170): `f.pc <- A * 4`. -/
def execJmp (target : Byte) (s : State) : Result :=
  jumpIf true target s

/-- JEQ (R171): `if x[B] = x[C] then f.pc <- A * 4 else f.pc <- f.pc + 4`. -/
def execJeq (target src1 src2 : Byte) (s : State) : Result :=
  jumpIf (aluEq (s.readReg src1) (s.readReg src2)) target s

/-- JGT (R172): `if x[B] > x[C] then f.pc <- A * 4 else f.pc <- f.pc + 4`, unsigned. -/
def execJgt (target src1 src2 : Byte) (s : State) : Result :=
  jumpIf (aluGtu (s.readReg src1) (s.readReg src2)) target s

end Sys2Proof.Machine
end

