-- ==== Sys2Proof/Machine/Context.lean ====
section
/-! DEFINITION. CALL, EXIT (44_call_exit.md). -/

namespace Sys2Proof.Machine

/-- CALL (R190), the call step: the name, the depth limit, the load and the header check in that order (60_exceptions.md
R213), then the child's frame. The return step is `endContext`. -/
def execCall (dest nameBase : Byte) (s : State) : Result :=
  match s.frames with
  | [] => .fault .noActiveContext
  | f :: _ =>
    match callName s nameBase with
    | none => raise (.unterminatedCallName f.pc nameBase) s
    | some name =>
      if depthReached s then raise (.callDepthExceeded f.pc s.frames.length) s
      else
        match (load s name).bind streamOf with
        | none => raise (.childExecutionError f.pc name) s
        | some code => .next (pushContext code dest s)

/-- EXIT (R197): `endContext(x[A] & 0xFF)`. -/
def execExit (src : Byte) (s : State) : Result :=
  endContext (s.readReg src) s

end Sys2Proof.Machine
end

