-- ==== Sys2Proof/Machine/Io.lean ====
section
/-! DEFINITION. READ-N, READ-S, PUT-N, PUT-S (42_io.md). -/

namespace Sys2Proof.Machine

/-- READ-N (R140). Without an answer at IN it holds: the state is unchanged (R148, assumption 4). -/
def execReadN (dest : Byte) (s : State) : Result :=
  match inLine s with
  | none => .next s
  | some (ans, s') => advance (s'.writeReg dest (readNValue ans))

/-- READ-S (R143). The range is checked before the input (R146). Without an answer at IN it holds (R148, assumption 4). -/
def execReadS (base count : Byte) (s : State) : Result :=
  match s.frames with
  | [] => .fault .noActiveContext
  | f :: _ =>
    if rangeOverruns base count then raise (.registerIndexOutOfRange f.pc base count) s
    else
      match inLine s with
      | none => .next s
      | some (ans, s') => advance (s'.writeRange base (readSValue ans) count.toNat)

/-- PUT-N (R150): emit `PUT_RENDER(B, x[A])`. -/
def execPutN (src fmt : Byte) (s : State) : Result :=
  advance (emit (putRender s.config fmt (s.readReg src)) s)

/-- PUT-S (R153). The range is checked before the output (R146). -/
def execPutS (base count : Byte) (s : State) : Result :=
  match s.frames with
  | [] => .fault .noActiveContext
  | f :: _ =>
    if rangeOverruns base count then raise (.registerIndexOutOfRange f.pc base count) s
    else advance (emit ((s.readRange base count).map putSCode) s)

end Sys2Proof.Machine
end

