-- ==== Sys2Proof/Machine/RegisterAlu.lean ====
section
/-! DEFINITION. SET, MOV, ADD, SUB (41_register_alu.md). -/

namespace Sys2Proof.Machine

/-- SET (R120): `x[A] <- B ; f.pc <- f.pc + 4`. -/
def execSet (dest value : Byte) (s : State) : Result :=
  advance (s.writeReg dest (aluPass value))

/-- MOV (R121): `x[A] <- x[B] ; f.pc <- f.pc + 4`. -/
def execMov (dest src : Byte) (s : State) : Result :=
  advance (s.writeReg dest (aluPass (s.readReg src)))

/-- ADD (R122): `x[A] <- (x[B] + x[C]) mod 256 ; f.pc <- f.pc + 4`. -/
def execAdd (dest src1 src2 : Byte) (s : State) : Result :=
  advance (s.writeReg dest (aluAdd (s.readReg src1) (s.readReg src2)))

/-- SUB (R123): `x[A] <- (x[B] - x[C]) mod 256 ; f.pc <- f.pc + 4`. -/
def execSub (dest src1 src2 : Byte) (s : State) : Result :=
  advance (s.writeReg dest (aluSub (s.readReg src1) (s.readReg src2)))

end Sys2Proof.Machine
end

