-- ==== Sys2Proof/Machine/Dispatch.lean ====
section
/-! DEFINITION. The dispatch (40_cycle.md R103, R107): one arm for each instruction. -/

namespace Sys2Proof.Machine

def exec (i : Instr) (s : State) : Host.Outcome State Fault Refusal :=
  match i with
  | .set dest value => Sys2Proof.Machine.execSet dest value s
  | .mov dest src => Sys2Proof.Machine.execMov dest src s
  | .add dest src1 src2 => Sys2Proof.Machine.execAdd dest src1 src2 s
  | .sub dest src1 src2 => Sys2Proof.Machine.execSub dest src1 src2 s
  | .readN dest => Sys2Proof.Machine.execReadN dest s
  | .readS base count => Sys2Proof.Machine.execReadS base count s
  | .putS base count => Sys2Proof.Machine.execPutS base count s
  | .putN src fmt => Sys2Proof.Machine.execPutN src fmt s
  | .jmp target => Sys2Proof.Machine.execJmp target s
  | .jeq target src1 src2 => Sys2Proof.Machine.execJeq target src1 src2 s
  | .jgt target src1 src2 => Sys2Proof.Machine.execJgt target src1 src2 s
  | .call dest nameBase => Sys2Proof.Machine.execCall dest nameBase s
  | .exit src => Sys2Proof.Machine.execExit src s

end Sys2Proof.Machine
end

