-- ==== Sys2Proof/Machine/Cycle.lean ====
section
/-! DEFINITION. The control-flow arbiter (40_cycle.md R107): what one step of a running machine does. -/

namespace Sys2Proof.Machine

/-- Run what the decoder answered for the word at `pc`. -/
def runDecoded (pc : Nat) (d : Decoded) (s : State) : Result :=
  match d with
  | .truncated => raise (.truncatedFetch pc) s
  | .unknownOpcode op => raise (.unknownOpcode pc op) s
  | .illegalReadMode mode => raise (.illegalReadMode pc mode) s
  | .instr i => exec i s

/-- One step of a running machine (40_cycle.md R107): the termination check, the fetch, the dispatch. -/
def cycle (s : State) : Result :=
  match s.frames with
  | [] => .fault .noActiveContext
  | f :: _ => if f.code.length ≤ f.pc then endContext 0 s else runDecoded f.pc (decode (fetch f)) s

end Sys2Proof.Machine
end

