-- ==== Sys2Proof/Machine/Step.lean ====
section
/-! DEFINITION. One step (40_cycle.md R100), and the placing of a word where it fetches. -/

namespace Sys2Proof.Machine

/-- One step: a running machine takes one, a halted or faulted machine has none (10_state.md R29). -/
def step (s : State) : Host.Outcome State Fault Refusal :=
  match s.status.exitStatus with
  | none => cycle s
  | some code => .fault (.runEnded code)

/-- `s` with the table word stored where `step` fetches its next instruction (assumption 8). -/
def State.withFetchWord (s : State) (nbits w : Nat) : State := s.placeWord (tableWordBytes nbits w)

end Sys2Proof.Machine
end

