-- ==== Sys2Proof/Machine/Assembler.lean ====
section
/-! DEFINITION. The assembler contract (30_encoding.md Part B): from source lines to the words of an executable. It runs
before the machine and is not part of a step (assumption 21). -/

namespace Sys2Proof.Machine.Asm

/-- A token, a name or a line: its characters. -/
abbrev Text := List Char

/-- What an assembly step answers: a value, or the first error. -/
inductive Outcome (α : Type) where
  | ok (a : α)
  | error (e : AssemblyError)
  deriving DecidableEq, Repr

def Outcome.bind {α β : Type} (o : Outcome α) (k : α → Outcome β) : Outcome β :=
  match o with
  | .ok a => k a
  | .error e => .error e

/-- The first error of a list in order, or every value. -/
def Outcome.all {α : Type} : List (Outcome α) → Outcome (List α)
  | [] => .ok []
  | o :: os => o.bind fun a => (Outcome.all os).bind fun as => .ok (a :: as)

/-- The encoder's exit status on an error: never 0, and otherwise not said (R99, assumption 24). -/
def failureStatus (e : AssemblyError) : Byte := BitVec.ofNat 8 ((Config.failureStatusAboveOne e).val + 1)

/-- The encoder's exit status where the spec speaks of it, which is on an error alone (R99). -/
def Outcome.exitStatus {α : Type} (o : Outcome α) : Option Byte :=
  match o with
  | .ok _ => none
  | .error e => some (failureStatus e)

/-! ### Lines (R80, R81) -/

/-- Whitespace in source text (assumption 22). -/
def isSpace (c : Char) : Bool := isSpaceCode c.toNat

/-- Delete everything from the first `//` on (R80 (1)). -/
def stripComment : Text → Text
  | [] => []
  | c :: cs =>
    match cs with
    | [] => [c]
    | d :: _ => if c = '/' ∧ d = '/' then [] else c :: stripComment cs

/-- Delete leading and trailing whitespace (R80 (2)). -/
def trim (t : Text) : Text := ((t.dropWhile isSpace).reverse.dropWhile isSpace).reverse

/-- Split at runs of whitespace (R81); `cur` is the token being read, reversed. -/
def tokensFrom : Text → Text → List Text
  | cur, [] => if cur = [] then [] else [cur.reverse]
  | cur, c :: cs =>
    if isSpace c then
      (if cur = [] then tokensFrom [] cs else cur.reverse :: tokensFrom [] cs)
    else tokensFrom (c :: cur) cs

def tokens (t : Text) : List Text := tokensFrom [] t

/-- The kinds of preprocessed line (R80 (3), R81). -/
inductive Line where
  | blank
  | label (name : Text)
  | instr (mnemonic : Text) (operands : List Text)
  deriving DecidableEq, Repr

/-- A label line begins with `:`, ends with `:` and has at least 3 characters; its name is the text between (R81). -/
def labelName (t : Text) : Option Text :=
  if t.head? = some ':' ∧ t.getLast? = some ':' ∧ 3 ≤ t.length then some (t.drop 1).dropLast else none

/-- Classify one line of the original file (R80, R81). -/
def readLine (raw : Text) : Line :=
  let t := trim (stripComment raw)
  match labelName t with
  | some name => .label name
  | none =>
    match tokens t with
    | [] => .blank
    | m :: ops => .instr m ops

/-- The lines of a file with their numbers from 1, blank and comment lines counted (R80). -/
def readLines (src : List Text) : List (Nat × Line) :=
  src.zipIdx.map fun p => (p.2 + 1, readLine p.1)

/-! ### Values (R82, R83) -/

def codes (t : Text) : List Nat := t.map Char.toNat

/-- Form 1: exactly three characters, the first and the last a single quote (R82). -/
def charForm : Text → Option Char
  | [q, c, q'] => if q = '\'' ∧ q' = '\'' then some c else none
  | _ => none

/-- The base a prefix letter names: lower case only (R82, R83). -/
def prefixBase (p : Char) : Option Nat :=
  if p = 'b' then some 2 else if p = 'x' then some 16 else if p = 'o' then some 8 else none

/-- Forms 2 to 4: a literal that begins with `0b`, `0x` or `0o`, as its base and what follows the prefix (R82). -/
def prefixForm : Text → Option (Nat × Text)
  | z :: p :: ds => if z = '0' then (prefixBase p).map fun base => (base, ds) else none
  | _ => none

/-- The value parser `P`: the character form, then the prefixed forms, then a signed decimal (R82, R83). -/
def parseValue (tok : Text) : Option Int :=
  match charForm tok with
  | some c => some (c.toNat : Int)
  | none =>
    match prefixForm tok with
    | some (base, ds) => (parseDigits base (codes ds)).map fun (n : Nat) => (n : Int)
    | none => parseSigned (codes tok)

/-- `m(v) = v & 0xFF` (R89, R90). -/
def mask (v : Int) : Byte := BitVec.ofInt 8 v

/-- An index written in decimal (R85). -/
def decimalToken (k : Nat) : Text := (minimalDigits 10 k).map fun d => Char.ofNat (digitCode false d)

/-! ### Mnemonics (R88) -/

inductive Mnemonic where
  | set | mov | add | sub | read | put | jmp | jeq | jgt | call | exit
  deriving DecidableEq, Repr

/-- ASCII lower case to upper case (assumption 23). -/
def upperChar (c : Char) : Char :=
  if 'a' ≤ c ∧ c ≤ 'z' then Char.ofNat (c.toNat - 0x20) else c

def upper (t : Text) : Text := t.map upperChar

def Mnemonic.text : Mnemonic → Text
  | .set => ['S', 'E', 'T']
  | .mov => ['M', 'O', 'V']
  | .add => ['A', 'D', 'D']
  | .sub => ['S', 'U', 'B']
  | .read => ['R', 'E', 'A', 'D']
  | .put => ['P', 'U', 'T']
  | .jmp => ['J', 'M', 'P']
  | .jeq => ['J', 'E', 'Q']
  | .jgt => ['J', 'G', 'T']
  | .call => ['C', 'A', 'L', 'L']
  | .exit => ['E', 'X', 'I', 'T']

def Mnemonic.every : List Mnemonic := [.set, .mov, .add, .sub, .read, .put, .jmp, .jeq, .jgt, .call, .exit]

/-- The mnemonic a token spells, in any case (R88). -/
def parseMnemonic (tok : Text) : Option Mnemonic := Mnemonic.every.find? fun m => m.text == upper tok

def Mnemonic.isJump : Mnemonic → Bool
  | .jmp => true
  | .jeq => true
  | .jgt => true
  | .set => false
  | .mov => false
  | .add => false
  | .sub => false
  | .read => false
  | .put => false
  | .call => false
  | .exit => false

/-- A token that spells a jump-family mnemonic (R85). -/
def isJumpToken (tok : Text) : Bool :=
  match parseMnemonic tok with
  | some m => m.isJump
  | none => false

/-! ### Labels (R84–R87) -/

/-- A bound label: its name and the index of the next instruction after it. -/
structure Binding where
  name  : Text
  index : Nat
  deriving DecidableEq, Repr

def lookupLabel (table : List Binding) (name : Text) : Option Nat :=
  (table.find? fun b => b.name == name).map Binding.index

/-- Pass 1 (R84, R86): bind every label to the count `k` of instruction lines before it. -/
def bindLabels : List Binding → Nat → List (Nat × Line) → Outcome (List Binding)
  | table, _, [] => .ok table
  | table, k, (n, l) :: rest =>
    match l with
    | .blank => bindLabels table k rest
    | .instr _ _ => bindLabels table (k + 1) rest
    | .label name =>
      match lookupLabel table name with
      | some _ => .error { kind := .duplicateLabel, line := n }
      | none => bindLabels (table ++ [{ name := name, index := k }]) k rest

/-- An instruction line: its number, mnemonic token and operand tokens; once pass 2 has put an index in the place of a
label name, `label` is that name. -/
structure InstrLine where
  line     : Nat
  mnemonic : Text
  operands : List Text
  label    : Option Text
  deriving DecidableEq, Repr

/-- The instruction lines of a file in source order. -/
def instrLines : List (Nat × Line) → List InstrLine
  | [] => []
  | (n, l) :: rest =>
    match l with
    | .blank => instrLines rest
    | .label _ => instrLines rest
    | .instr m ops => { line := n, mnemonic := m, operands := ops, label := none } :: instrLines rest

/-- The label a line with this first operand references: the operand itself, or the name an earlier pass replaced. -/
def InstrLine.labelOf (l : InstrLine) (first : Text) : Text :=
  match l.label with
  | some name => name
  | none => first

/-- Pass 2 on one line (R85, R86): a jump's first operand is a label name, replaced by its index in decimal.
On a resolved line it looks the same name up again, so resolving twice gives the same index. -/
def resolveLine (table : List Binding) (l : InstrLine) : Outcome InstrLine :=
  if isJumpToken l.mnemonic then
    match l.operands with
    | [] => .error { kind := .malformedInstruction, line := l.line }
    | first :: ops =>
      match lookupLabel table (l.labelOf first) with
      | none => .error { kind := .undefinedLabel, line := l.line }
      | some k => .ok { l with operands := decimalToken k :: ops, label := some (l.labelOf first) }
  else .ok l

/-- Pass 2 (R85): every instruction line in source order, up to the first error. -/
def resolveLines (table : List Binding) (ls : List InstrLine) : Outcome (List InstrLine) :=
  Outcome.all (ls.map (resolveLine table))

/-! ### The instruction encoder (R88–R92) -/

/-- A source form of R89 whose operand count and mode shape are right: what is left is to parse its values.
The jump forms hold the resolved index. -/
inductive Shape where
  | set (dest value : Text)
  | mov (dest src : Text)
  | add (dest a b : Text)
  | sub (dest a b : Text)
  | readN (dest : Text)
  | readS (dest n : Text)
  | putN (src : Text) (fmt : Char)
  | putS (src n : Text)
  | jmp (index : Text)
  | jeq (index a b : Text)
  | jgt (index a b : Text)
  | call (dest strAddr : Text)
  | exit (src : Text)
  deriving DecidableEq, Repr

/-- Operand count and mode shape (R89, R91, R92): READ's mode in either case, PUT's exactly `N` or `S`. -/
def shapeOf (m : Mnemonic) (ops : List Text) : Option Shape :=
  match m with
  | .set => match ops with
    | [d, v] => some (.set d v)
    | _ => none
  | .mov => match ops with
    | [d, r] => some (.mov d r)
    | _ => none
  | .add => match ops with
    | [d, a, b] => some (.add d a b)
    | _ => none
  | .sub => match ops with
    | [d, a, b] => some (.sub d a b)
    | _ => none
  | .read => match ops with
    | [d, mode] => if upper mode = ['N'] then some (.readN d) else none
    | [d, mode, n] => if upper mode = ['S'] then some (.readS d n) else none
    | _ => none
  | .put => match ops with
    | [r, mode, x] =>
      if mode = ['N'] then
        (match x with
        | [fmt] => some (.putN r fmt)
        | _ => none)
      else if mode = ['S'] then some (.putS r x) else none
    | _ => none
  | .jmp => match ops with
    | [t] => some (.jmp t)
    | _ => none
  | .jeq => match ops with
    | [t, a, b] => some (.jeq t a b)
    | _ => none
  | .jgt => match ops with
    | [t, a, b] => some (.jgt t a b)
    | _ => none
  | .call => match ops with
    | [d, r] => some (.call d r)
    | _ => none
  | .exit => match ops with
    | [r] => some (.exit r)
    | _ => none

/-- An operand's byte: `m(P(tok))` (R89). -/
def operand (tok : Text) : Option Byte := (parseValue tok).map mask

/-- The format byte of PUT's N form: `code(fmt) & 0x7F` (R92). -/
def formatByte (fmt : Char) : Byte := BitVec.ofNat 8 (fmt.toNat % 128)

/-- The instruction of a source form, operands parsed from left to right; `none` where one does not parse (R89). -/
def instrOf : Shape → Option Instr
  | .set d v => (operand d).bind fun d => (operand v).map fun v => .set d v
  | .mov d r => (operand d).bind fun d => (operand r).map fun r => .mov d r
  | .add d a b => (operand d).bind fun d => (operand a).bind fun a => (operand b).map fun b => .add d a b
  | .sub d a b => (operand d).bind fun d => (operand a).bind fun a => (operand b).map fun b => .sub d a b
  | .readN d => (operand d).map fun d => .readN d
  | .readS d n => (operand d).bind fun d => (operand n).map fun n => .readS d n
  | .putN r fmt => (operand r).map fun r => .putN r (formatByte fmt)
  | .putS r n => (operand r).bind fun r => (operand n).map fun n => .putS r n
  | .jmp t => (operand t).map fun t => .jmp t
  | .jeq t a b => (operand t).bind fun t => (operand a).bind fun a => (operand b).map fun b => .jeq t a b
  | .jgt t a b => (operand t).bind fun t => (operand a).bind fun a => (operand b).map fun b => .jgt t a b
  | .call d r => (operand d).bind fun d => (operand r).map fun r => .call d r
  | .exit r => (operand r).map fun r => .exit r

/-- Encode one resolved line: the mnemonic, then the shape, then the operands (R88, R93). -/
def encodeLine (l : InstrLine) : Outcome Instr :=
  match parseMnemonic l.mnemonic with
  | none => .error { kind := .unknownOpcode, line := l.line }
  | some m =>
    match shapeOf m l.operands with
    | none => .error { kind := .malformedInstruction, line := l.line }
    | some shape =>
      match instrOf shape with
      | none => .error { kind := .malformedOperand, line := l.line }
      | some i => .ok i

/-! ### Assembly (R93–R95) -/

/-- Passes 1 and 2: the resolved instruction lines (R93 (1), (2)). -/
def resolve (src : List Text) : Outcome (List InstrLine) :=
  (bindLabels [] 0 (readLines src)).bind fun table =>
    resolveLines table (instrLines (readLines src))

/-- The instructions of a source file (R93). -/
def assembleInstrs (src : List Text) : Outcome (List Instr) :=
  (resolve src).bind fun ls => Outcome.all (ls.map encodeLine)

/-- The executable file of a source file (R94). -/
def assemble (src : List Text) : Outcome (List Byte) :=
  (assembleInstrs src).bind fun is => .ok (executable is)

/-! ### The listing (R97) -/

/-- Two uppercase hexadecimal digits. -/
def hexByte (b : Byte) : Text :=
  [Char.ofNat (digitCode true (b.toNat / 16)), Char.ofNat (digitCode true (b.toNat % 16))]

/-- One listing line: mnemonic in upper case, the resolved operand tokens, the word's 8 hexadecimal digits, a newline. -/
def listingLine (l : InstrLine) (i : Instr) : Text :=
  [' '].intercalate (upper l.mnemonic :: l.operands) ++ [':', ' '] ++ (encode i).flatMap hexByte ++ ['\n']

/-- The listing: one line for each instruction in emission order, none for a label. -/
def listing (src : List Text) : Outcome (List Text) :=
  (resolve src).bind fun ls =>
    (Outcome.all (ls.map encodeLine)).bind fun is => .ok (List.zipWith listingLine ls is)

end Sys2Proof.Machine.Asm
end

