-- ==== Sys2Proof/Machine/Inputs.lean ====
section
/-! DEFINITION. The step as 40_cycle.md R107 writes it: of the block's state alone, with the parameters and the host's
answers as arguments (10_state.md R34). -/

namespace Sys2Proof.Machine

/-- The host's answers to one step (40_cycle.md R107 `inAns`, `loadAns`). -/
structure StepInputs where
  /-- The IN answer, `none` while the host has not answered (42_io.md R148). -/
  inAnswer   : Option InAnswer
  /-- The LOADER answer, `none` where the file cannot be loaded (00_scope.md R7). -/
  loadAnswer : Option (List Byte)
  deriving DecidableEq, Repr

/-- The name the next step asks LOADER for: that of a CALL that has one and is below the depth limit
(44_call_exit.md R190 to R193). -/
def loadRequest (s : State) : Option (List Byte) :=
  match s.frames with
  | [] => none
  | f :: _ =>
    match decode (fetch f) with
    | .instr i =>
      match i with
      | .call _ nameBase => if depthReached s then none else callName s nameBase
      | _ => none
    | .unknownOpcode _ => none
    | .illegalReadMode _ => none
    | .truncated => none

/-- Port IN with this answer on it. -/
def answeringPort : Option InAnswer → InPort
  | none => { lines := [], ended := false }
  | some (.line l) => { lines := [l], ended := false }
  | some .eof => { lines := [], ended := true }

/-- The files with which LOADER gives this answer to this request. -/
def answeringFiles : Option (List Byte) → Option (List Byte) → List HostFile
  | some name, some bytes => [{ name := name, bytes := bytes }]
  | some _, none => []
  | none, _ => []

/-- The block beside an environment that holds the parameters and gives these answers. -/
def Block.withInputs (b : Block) (config : Config) (inputs : StepInputs) : State :=
  let asking : State := { b with input := answeringPort inputs.inAnswer, loader := [], config := config }
  { asking with loader := answeringFiles (loadRequest asking) inputs.loadAnswer }

/-- The block's part of what a step answers. -/
def blockOf (r : Result) : Host.Outcome Block Fault Refusal :=
  match r with
  | .next t => .next t.toBlock
  | .fault x => .fault x
  | .refused x => .refused x

/-- The step relation of the spec's state (10_state.md R34, 40_cycle.md R107, R108): a function of the configuration, the
host's answers and the block's state. -/
def Block.step (config : Config) (inputs : StepInputs) (b : Block) : Host.Outcome Block Fault Refusal :=
  blockOf (Machine.step (b.withInputs config inputs))

/-- The answers a state's environment gives to its next step. -/
def State.inputs (s : State) : StepInputs where
  inAnswer   := (inLine s).map Prod.fst
  loadAnswer := (loadRequest s).bind (load s)

/-! ### Runs (40_cycle.md R108, R109) -/

/-- A run as a function of the host's answers: `n` steps of the block, the `k`-th with the answers `answers k`.
A step at which IN does not answer leaves a READ held, and a later step may answer it (42_io.md R148); two CALLs of one
name each take LOADER's answer at their own step (20_memory.md R51).
The run ends where the status leaves Running, and stays there. -/
def Block.run (config : Config) (answers : Nat → StepInputs) : Nat → Block → Host.Outcome Block Fault Refusal
  | 0, b => .next b
  | n + 1, b =>
    match Block.run config answers n b with
    | .next c =>
      match c.status.exitStatus with
      | none => c.step config (answers n)
      | some _ => .next c
    | .fault x => .fault x
    | .refused x => .refused x

/-- The block after the launch of a root file: what the host holds at the ports does not matter to it
(70_reset_and_hazards.md R230, R231). -/
def Block.launch (file : List Byte) : Block :=
  (State.launch file { lines := [], ended := false } [] Config.default).toBlock

/-- The run of a root file under a configuration and the host's answers. -/
def runFile (file : List Byte) (config : Config) (answers : Nat → StepInputs) (n : Nat) :
    Host.Outcome Block Fault Refusal :=
  Block.run config answers n (Block.launch file)

end Sys2Proof.Machine
end

