-- ==== Sys2Proof/Safety.lean ====
section
/-! DEFINITION. The words the statements use: what a well-formed machine is, what an instruction may touch, and which
registers it reads and writes. -/

namespace Sys2Proof.Machine

/-! ### Well-formed frame stacks (10_state.md R24–R27) -/

/-- The context stands at a CALL with that destination register (10_state.md R25). -/
def Frame.standsAtCall (f : Frame) (dest : Byte) : Bool :=
  match decode (fetch f) with
  | .instr i =>
    match i with
    | .call d _ => d == dest
    | _ => false
  | .unknownOpcode _ => false
  | .illegalReadMode _ => false
  | .truncated => false

/-- The stack of a launched machine: the last frame is the root and has no `dest`; every other frame has one, and the
frame under it stands at the CALL that names it; every program counter is a multiple of 4 (10_state.md R24–R27). -/
def framesWf : List Frame → Bool
  | [] => false
  | [root] => root.dest == none && root.pc % 4 == 0
  | child :: caller :: rest =>
    child.pc % 4 == 0 &&
    (match child.dest with
    | some d => caller.standsAtCall d
    | none => false) &&
    framesWf (caller :: rest)

/-- At most MAX_CALL_DEPTH contexts are live, beside the root's own (44_call_exit.md R192). -/
def depthWithin (s : State) : Bool :=
  match s.config.maxCallDepth with
  | some d => s.frames.length ≤ max d 1
  | none => true

/-- The launch failed: no frame, and the status says so (70_reset_and_hazards.md R230). -/
def launchFailed (s : State) : Bool :=
  s.frames == [] && s.status == .faulted { cause := .invalidHeader, depth := 0 }

/-- The machine's invariant. -/
def Invariant (s : State) : Bool := (framesWf s.frames || launchFailed s) && depthWithin s

/-- `n` steps from `s` answer `t`. -/
def stepsTo (n : Nat) (s t : State) : Prop :=
  match n with
  | 0 => t = s
  | n + 1 => ∃ u, step s = .next u ∧ stepsTo n u t

/-! ### Digits in text (00_scope.md R9, 30_encoding.md R83) -/

/-- The code `c` is the character of the digit `d` of the base, a letter in either case. -/
def isDigitOf (base c d : Nat) : Prop :=
  d < base ∧ ((d < 10 ∧ c = 0x30 + d) ∨ (10 ≤ d ∧ (c = 0x61 + (d - 10) ∨ c = 0x41 + (d - 10))))

/-- The characters spell these digits of the base. -/
def spells (base : Nat) (cs : List Char) (ds : List Nat) : Prop := List.Forall₂ (fun c d => isDigitOf base c.toNat d) cs ds

/-! ### Frames of instructions -/

/-- `t` is `s` but for the registers in `touched`, with the given frames, output, input and status.
The host's files and the parameters are those of `s`. -/
def EffectIs (touched : Byte → Prop) (frames : List Frame) (out : List Byte) (input : InPort) (status : RunStatus)
    (s t : State) : Prop :=
  (∀ r, ¬ touched r → t.readReg r = s.readReg r) ∧
  t.frames = frames ∧ t.out = out ∧ t.input = input ∧ t.status = status ∧
  t.loader = s.loader ∧ t.config = s.config

/-- No register. -/
def noReg (_ : Byte) : Prop := False

/-- The registers `A` to `A+C-1`. -/
def inRange (base count r : Byte) : Prop :=
  base.toNat ≤ r.toNat ∧ r.toNat < base.toNat + count.toNat

/-! ### Register ports (10_state.md R22) -/

/-- The registers CALL's name scan reads: from its start up to the first 0 (44_call_exit.md R191). -/
def nameCell (s : State) (start r : Byte) : Prop :=
  start.toNat ≤ r.toNat ∧
  ∀ j : Byte, start.toNat ≤ j.toNat → j.toNat < r.toNat → s.readReg j ≠ 0

/-- The registers an instruction reads in its own step (10_state.md R22). -/
def readsReg (i : Instr) (s : State) (r : Byte) : Prop :=
  match i with
  | .set _ _ => False
  | .mov _ src => r = src
  | .add _ src1 src2 => r = src1 ∨ r = src2
  | .sub _ src1 src2 => r = src1 ∨ r = src2
  | .readN _ => False
  | .readS _ _ => False
  | .putS base count => inRange base count r
  | .putN src _ => r = src
  | .jmp _ => False
  | .jeq _ src1 src2 => r = src1 ∨ r = src2
  | .jgt _ src1 src2 => r = src1 ∨ r = src2
  | .call _ nameBase =>
    (s.config.nameAddressing = .indirect ∧ r = nameBase) ∨ nameCell s (nameStart s nameBase) r
  | .exit src => r = src

/-- The registers an instruction writes in its own step (10_state.md R22): CALL's own step writes none, and EXIT in a
subordinate writes the caller's destination. -/
def writesReg (i : Instr) (s : State) (r : Byte) : Prop :=
  match i with
  | .set dest _ => r = dest
  | .mov dest _ => r = dest
  | .add dest _ _ => r = dest
  | .sub dest _ _ => r = dest
  | .readN dest => r = dest
  | .readS base count => inRange base count r
  | .putS _ _ => False
  | .putN _ _ => False
  | .jmp _ => False
  | .jeq _ _ _ => False
  | .jgt _ _ _ => False
  | .call _ _ => False
  | .exit _ =>
    match s.frames with
    | [] => False
    | [_] => False
    | child :: _ :: _ => child.dest = some r

end Sys2Proof.Machine
end

