-- ==== Sys2Proof/Certificates/Slice0/Obligations.lean ====
section
/-! DEFINITION. The statements for the provers. A sentence that rests on a choice of the spec's own (a decision D<n> of
92_eei_decisions.md, a [derived] mark) or of the model's (a log entry) says so. -/

open Sys2Proof Sys2Proof.Machine

/-! ### Encoding (30_encoding.md Part A) -/

/-- Words written out from the spec's encodings decode to the instructions they stand for (95_test_vectors.md, P2 and L2). -/
def Obligations.SpecWordsDecode : Prop :=
  decode [0x01, 0x00, 0x03, 0x00] = .instr (.set 0 3) ∧
  decode [0x02, 0x09, 0x03, 0x00] = .instr (.mov 9 3) ∧
  decode [0x04, 0x00, 0x00, 0x01] = .instr (.sub 0 0 1) ∧
  decode [0x08, 0x0A, 0x01, 0x00] = .instr (.readN 10) ∧
  decode [0x08, 0x14, 0x02, 0x04] = .instr (.readS 20 4) ∧
  decode [0x09, 0x0C, 0x78, 0x00] = .instr (.putN 12 0x78) ∧
  decode [0x09, 0x14, 0x80, 0x04] = .instr (.putS 20 4) ∧
  decode [0x12, 0x03, 0x00, 0x02] = .instr (.jgt 3 0 2) ∧
  decode [0x20, 0x05, 0x64, 0x00] = .instr (.call 5 100) ∧
  decode [0x21, 0x0D, 0x00, 0x00] = .instr (.exit 13)

/-- The encoder and the decoder agree: the word of every well-formed instruction, whatever bytes follow it, decodes to
that instruction. -/
def Obligations.DecodeOfEncodeIsIdentity : Prop :=
  ∀ (i : Instr) (rest : List Byte), i.WellFormed = true → decode (encode i ++ rest) = .instr i

/-- The other direction: a word that decodes to an instruction is that instruction's own word but for slots the
instruction does not use, where the encoder writes 0 (that the decoder ignores them is decision D6, log 14); and what the
decoder answers is well-formed. -/
def Obligations.DecodedWordReencodes : Prop :=
  ∀ (op a b c : Byte) (i : Instr), decode [op, a, b, c] = .instr i →
    i.WellFormed = true ∧
    ∃ b' c', encode i = [op, a, b', c'] ∧ (b' = b ∨ b' = 0) ∧ (c' = c ∨ c' = 0) ∧ decode [op, a, b', c'] = .instr i

/-- The opcode map: a word decodes to an instruction or to a READ-mode error exactly when its opcode is one of the eleven
of R62, and every other opcode is reported as unknown (the READ-mode error is decision D7). -/
def Obligations.UnassignedOpcodesAreUnknown : Prop :=
  ∀ (op a b c : Byte),
    decode [op, a, b, c] ≠ .truncated ∧
    (decode [op, a, b, c] = .unknownOpcode op ↔
      op ∉ [0x01, 0x02, 0x03, 0x04, 0x08, 0x09, 0x10, 0x11, 0x12, 0x20, 0x21]) ∧
    (∀ op', decode [op, a, b, c] = .unknownOpcode op' → op' = op)

/-- READ is decoded by its mode byte: 0x01 is the N form, 0x02 the S form, any other is an illegal mode (decision D7).
That the N form is decoded whatever C holds is decision D6 (log 14). -/
def Obligations.ReadModeSelectsForm : Prop :=
  ∀ (a b c : Byte),
    decode [0x08, a, b, c] =
      if b = 0x01 then .instr (.readN a) else if b = 0x02 then .instr (.readS a c) else .illegalReadMode b

/-- PUT is decoded by its B byte: 0x80 is the S form with count C, every other value the N form with format code B.
That the N form is decoded whatever C holds is decision D6 (log 14). -/
def Obligations.PutModeSelectsForm : Prop :=
  ∀ (a b c : Byte),
    decode [0x09, a, b, c] = if b = 0x80 then .instr (.putS a c) else .instr (.putN a b)

/-- A slot without a role does not matter (decision D6, log 14): two words that differ only there decode alike. -/
def Obligations.UnusedSlotsAreIgnored : Prop :=
  ∀ (op a b c b' c' : Byte),
    (op ∈ [0x01, 0x02, 0x20] → decode [op, a, b, c] = decode [op, a, b, c']) ∧
    (op ∈ [0x10, 0x21] → decode [op, a, b, c] = decode [op, a, b', c']) ∧
    (op = 0x08 → b ≠ 0x02 → decode [op, a, b, c] = decode [op, a, b, c']) ∧
    (op = 0x09 → b ≠ 0x80 → decode [op, a, b, c] = decode [op, a, b, c'])

/-! ### Register and ALU instructions (41_register_alu.md) -/

/-- SET writes its immediate and nothing else.
That it is decoded whatever C holds is decision D6 (log 14). -/
def Obligations.SetWritesImmediate : Prop :=
  ∀ (s : State) (f : Frame) (rest : List Frame) (a b : Byte), s.frames = f :: rest →
    (∀ c, decode [0x01, a, b, c] = .instr (.set a b)) ∧
    ∃ t, exec (.set a b) s = .next t ∧ t.readReg a = b ∧
      EffectIs (· = a) ({ f with pc := f.pc + 4 } :: rest) s.out s.input s.status s t

/-- MOV copies a register and nothing else; onto itself it leaves every register as it was.
That it is decoded whatever C holds is decision D6 (log 14). -/
def Obligations.MovCopiesRegister : Prop :=
  ∀ (s : State) (f : Frame) (rest : List Frame) (a b : Byte), s.frames = f :: rest →
    (∀ c, decode [0x02, a, b, c] = .instr (.mov a b)) ∧
    ∃ t, exec (.mov a b) s = .next t ∧ t.readReg a = s.readReg b ∧
      EffectIs (· = a) ({ f with pc := f.pc + 4 } :: rest) s.out s.input s.status s t

/-- ADD writes the sum modulo 256 of the old values, also where a source is the destination, and nothing else. -/
def Obligations.AddWritesSumModulo256 : Prop :=
  ∀ (s : State) (f : Frame) (rest : List Frame) (a b c : Byte), s.frames = f :: rest →
    decode [0x03, a, b, c] = .instr (.add a b c) ∧
    ∃ t, exec (.add a b c) s = .next t ∧
      (t.readReg a).toNat = ((s.readReg b).toNat + (s.readReg c).toNat) % 256 ∧
      EffectIs (· = a) ({ f with pc := f.pc + 4 } :: rest) s.out s.input s.status s t

/-- SUB writes the difference modulo 256 (the least non-negative residue) of the old values, also where a source is the
destination, and nothing else. -/
def Obligations.SubWritesDifferenceModulo256 : Prop :=
  ∀ (s : State) (f : Frame) (rest : List Frame) (a b c : Byte), s.frames = f :: rest →
    decode [0x04, a, b, c] = .instr (.sub a b c) ∧
    ∃ t, exec (.sub a b c) s = .next t ∧
      ((t.readReg a).toNat : Int) = (((s.readReg b).toNat : Int) - ((s.readReg c).toNat : Int)) % 256 ∧
      EffectIs (· = a) ({ f with pc := f.pc + 4 } :: rest) s.out s.input s.status s t

/-! ### Input (42_io.md §1) -/

/-- READ-N consumes one line and stores its number modulo 256, or 0 where the line is no number (decision D8); at end of
input it stores 0 (decision D9).
That it is decoded whatever C holds is decision D6 (log 14). -/
def Obligations.ReadNStoresDecimal : Prop :=
  ∀ (s : State) (f : Frame) (rest : List Frame) (a : Byte), s.frames = f :: rest →
    (∀ c, decode [0x08, a, 0x01, c] = .instr (.readN a)) ∧
    (∀ l ls, s.input.lines = l :: ls →
      ∃ t, exec (.readN a) s = .next t ∧
        (∀ n, parseDec l = some n → ((t.readReg a).toNat : Int) = n % 256) ∧
        (parseDec l = none → t.readReg a = 0) ∧
        EffectIs (· = a) ({ f with pc := f.pc + 4 } :: rest) s.out { s.input with lines := ls } s.status s t) ∧
    (s.input.lines = [] → s.input.ended = true →
      ∃ t, exec (.readN a) s = .next t ∧ t.readReg a = 0 ∧
        EffectIs (· = a) ({ f with pc := f.pc + 4 } :: rest) s.out s.input s.status s t)

/-- What a decimal number is (decision D8): surrounding whitespace, at most one sign, one or more ASCII digits, nothing
else; its value is the signed decimal number, of any magnitude. -/
def Obligations.ParseDecReadsSignedDecimal : Prop :=
  ∀ (l : List Nat) (n : Int),
    parseDec l = some n ↔
      ∃ pre sign ds post : List Nat,
        l = pre ++ sign ++ ds ++ post ∧
        (∀ c ∈ pre ++ post, c ∈ [0x09, 0x0A, 0x0B, 0x0C, 0x0D, 0x20]) ∧
        sign ∈ [[], [0x2B], [0x2D]] ∧
        ds ≠ [] ∧ (∀ c ∈ ds, 0x30 ≤ c ∧ c ≤ 0x39) ∧
        n = (if sign = [0x2D] then -1 else 1) * ((ds.foldl (fun v c => v * 10 + (c - 0x30)) 0 : Nat) : Int)

/-- READ-S consumes one line and stores its first C characters, each modulo 256, padded with 0; at end of input it
stores C zeros (decisions D9, D10). -/
def Obligations.ReadSStoresCharacters : Prop :=
  ∀ (s : State) (f : Frame) (rest : List Frame) (a c : Byte), s.frames = f :: rest → a.toNat + c.toNat ≤ 256 →
    decode [0x08, a, 0x02, c] = .instr (.readS a c) ∧
    (∀ l ls, s.input.lines = l :: ls →
      ∃ t, exec (.readS a c) s = .next t ∧
        (∀ r, inRange a c r →
          (∀ ch, l[r.toNat - a.toNat]? = some ch → (t.readReg r).toNat = ch % 256) ∧
          (l.length ≤ r.toNat - a.toNat → t.readReg r = 0)) ∧
        EffectIs (inRange a c) ({ f with pc := f.pc + 4 } :: rest) s.out { s.input with lines := ls } s.status s t) ∧
    (s.input.lines = [] → s.input.ended = true →
      ∃ t, exec (.readS a c) s = .next t ∧ (∀ r, inRange a c r → t.readReg r = 0) ∧
        EffectIs (inRange a c) ({ f with pc := f.pc + 4 } :: rest) s.out s.input s.status s t)

/-- A ranged form that runs past register 255 faults with its operands, whatever the input, and nothing but the status
changes: no line is consumed, nothing is written or emitted (decision D11).
The fault record with its depth is decision D21, and the next state that holds it the model's reading (log 1). -/
def Obligations.RangePast255Faults : Prop :=
  ∀ (s : State) (f : Frame) (rest : List Frame) (a c : Byte), s.frames = f :: rest → 256 < a.toNat + c.toNat →
    exec (.readS a c) s =
      .next { s with status := .faulted { cause := .registerIndexOutOfRange f.pc a c, depth := s.frames.length } } ∧
    exec (.putS a c) s =
      .next { s with status := .faulted { cause := .registerIndexOutOfRange f.pc a c, depth := s.frames.length } }

/-- The READ hold (decision D9; the unchanged next state is the model's choice, assumption 4): while the host has not
answered, no number of steps changes anything. -/
def Obligations.ReadHoldsForEver : Prop :=
  ∀ (s : State) (f : Frame) (rest : List Frame) (a c : Byte),
    s.status = .running → s.frames = f :: rest → s.input.lines = [] → s.input.ended = false →
    (decode (fetch f) = .instr (.readN a) ∨ (decode (fetch f) = .instr (.readS a c) ∧ a.toNat + c.toNat ≤ 256)) →
    ∀ n t, stepsTo n s t ↔ t = s

/-- An answer lifts the hold, however late (decision D9; the input queue is the model's, log 3, and so is the unchanged
state of a held step, log 4): with a line supplied to a machine that had none, both READ forms complete and consume it; and in
a run in which IN does not answer for any number of steps and then does, the block stays as it was and then takes the step
it would have taken with that answer at once. -/
def Obligations.SuppliedLineLiftsHold : Prop :=
  ∀ (s : State) (f : Frame) (rest : List Frame) (a c : Byte) (l : List Nat),
    s.frames = f :: rest → s.input.lines = [] → a.toNat + c.toNat ≤ 256 →
    (∃ t, exec (.readN a) (s.supplyLine l) = .next t ∧ t.frames = { f with pc := f.pc + 4 } :: rest ∧
      t.input.lines = []) ∧
    (∃ t, exec (.readS a c) (s.supplyLine l) = .next t ∧ t.frames = { f with pc := f.pc + 4 } :: rest ∧
      t.input.lines = []) ∧
    (s.status = .running → (decode (fetch f) = .instr (.readN a) ∨ decode (fetch f) = .instr (.readS a c)) →
      ∀ (config : Config) (answers : Nat → StepInputs) (n : Nat) (ans : InAnswer),
        (∀ k, k < n → (answers k).inAnswer = none) → (answers n).inAnswer = some ans →
        Block.run config answers n s.toBlock = .next s.toBlock ∧
        ∃ t, Block.run config answers (n + 1) s.toBlock = .next t ∧
          Block.step config (answers n) s.toBlock = .next t ∧ t.frames = { f with pc := f.pc + 4 } :: rest)

/-! ### Output (42_io.md §2) -/

/-- PUT-N emits PUT_RENDER, an open parameter (decision D12), of its format code and register, and nothing else changes.
That it is decoded whatever C holds is decision D6 (log 14). -/
def Obligations.PutNEmitsRendering : Prop :=
  ∀ (s : State) (f : Frame) (rest : List Frame) (a b : Byte), s.frames = f :: rest → b ≠ 0x80 →
    (∀ c, decode [0x09, a, b, c] = .instr (.putN a b)) ∧
    ∃ t, exec (.putN a b) s = .next t ∧
      EffectIs noReg ({ f with pc := f.pc + 4 } :: rest) (s.out ++ putRender s.config b (s.readReg a)) s.input s.status s t

/-- The default PUT_RENDER (decision D12): the minimal digits of the value in the radix of its format code, most
significant first, hexadecimal letters upper case for `X` alone, and `0` for 0. -/
def Obligations.DefaultRenderingIsMinimalDigits : Prop :=
  ∀ (config : Config) (b v : Byte), config.putRender = [] →
    ∃ ds : List Nat,
      putRender config b v =
        ds.map (fun d => BitVec.ofNat 8 (if d < 10 then 0x30 + d else (if b = 0x58 then 0x41 else 0x61) + (d - 10))) ∧
      (∀ d ∈ ds, d < (if b = 0x78 ∨ b = 0x58 then 16 else if b = 0x62 then 2 else 10)) ∧
      ds.foldl (fun acc d => acc * (if b = 0x78 ∨ b = 0x58 then 16 else if b = 0x62 then 2 else 10) + d) 0 = v.toNat ∧
      ds ≠ [] ∧ (ds.head? = some 0 → ds = [0])

/-- Every PUT_RENDER has the radix and the letter case of its format code (decision D12 leaves open what else stands in the
text): the minimal digits of the value stand in what it prints, in order (the table is the model's choice, log 7). -/
def Obligations.RenderingKeepsRadixAndCase : Prop :=
  ∀ (config : Config) (b v : Byte) (radix : Nat), radix = (if b = 0x78 ∨ b = 0x58 then 16 else if b = 0x62 then 2 else 10) →
    ∃ ds : List Nat,
      (ds.map (fun d => BitVec.ofNat 8 (if d < 10 then 0x30 + d else (if b = 0x58 then 0x41 else 0x61) + (d - 10)))).Sublist
        (putRender config b v) ∧
      (∀ d ∈ ds, d < radix) ∧ ds.foldl (fun acc d => acc * radix + d) 0 = v.toNat ∧
      ds ≠ [] ∧ (ds.head? = some 0 → ds = [0])

/-- PUT_RENDER is open (decision D12): every function from format code and value to codes whose texts hold the number's
digits in order, with any codes before, between and after them, is some configuration's (the table is the model's choice,
log 7). -/
def Obligations.EveryRenderingIsConfigurable : Prop :=
  ∀ (g : Byte → Byte → List Byte) (config : Config), (∀ b v, (putRender Config.default b v).Sublist (g b v)) →
    ∃ config' : Config, config'.maxCallDepth = config.maxCallDepth ∧ config'.nameAddressing = config.nameAddressing ∧
      ∀ b v, putRender config' b v = g b v

/-- PUT-S emits its C registers in order, a register holding 0 as a space, every other value unchanged, and nothing else
changes. -/
def Obligations.PutSEmitsCharacters : Prop :=
  ∀ (s : State) (f : Frame) (rest : List Frame) (a c : Byte), s.frames = f :: rest → a.toNat + c.toNat ≤ 256 →
    decode [0x09, a, 0x80, c] = .instr (.putS a c) ∧
    ∃ t cs, exec (.putS a c) s = .next t ∧ cs.length = c.toNat ∧
      (∀ r, inRange a c r →
        cs[r.toNat - a.toNat]? = some (if s.readReg r = 0 then 0x20 else s.readReg r)) ∧
      EffectIs noReg ({ f with pc := f.pc + 4 } :: rest) (s.out ++ cs) s.input s.status s t

/-! ### Jumps (43_branch.md) -/

/-- JMP sets the program counter to four times its operand and changes nothing else.
That it is decoded whatever B and C hold is decision D6 (log 14). -/
def Obligations.JmpSetsPc : Prop :=
  ∀ (s : State) (f : Frame) (rest : List Frame) (a : Byte), s.frames = f :: rest →
    (∀ b c, decode [0x10, a, b, c] = .instr (.jmp a)) ∧
    ∃ t, exec (.jmp a) s = .next t ∧
      EffectIs noReg ({ f with pc := a.toNat * 4 } :: rest) s.out s.input s.status s t

/-- JEQ jumps exactly when the two registers are equal, else advances by 4, and changes nothing else. -/
def Obligations.JeqJumpsOnEqual : Prop :=
  ∀ (s : State) (f : Frame) (rest : List Frame) (a b c : Byte), s.frames = f :: rest →
    decode [0x11, a, b, c] = .instr (.jeq a b c) ∧
    ∃ t, exec (.jeq a b c) s = .next t ∧
      EffectIs noReg ({ f with pc := if s.readReg b = s.readReg c then a.toNat * 4 else f.pc + 4 } :: rest)
        s.out s.input s.status s t

/-- JGT jumps exactly when the first register is greater than the second as unsigned numbers, else advances by 4, and
changes nothing else. -/
def Obligations.JgtJumpsOnUnsignedGreater : Prop :=
  ∀ (s : State) (f : Frame) (rest : List Frame) (a b c : Byte), s.frames = f :: rest →
    decode [0x12, a, b, c] = .instr (.jgt a b c) ∧
    ∃ t, exec (.jgt a b c) s = .next t ∧
      EffectIs noReg
        ({ f with pc := if (s.readReg c).toNat < (s.readReg b).toNat then a.toNat * 4 else f.pc + 4 } :: rest)
        s.out s.input s.status s t

/-- A jump to its own index, a JMP or a JEQ or JGT that is taken, repeats for ever: no number of steps changes the state
([derived] in R176). -/
def Obligations.SelfJumpLoopsForEver : Prop :=
  ∀ (s : State) (f : Frame) (rest : List Frame) (a : Byte),
    s.status = .running → s.frames = f :: rest → f.pc = a.toNat * 4 →
    (decode (fetch f) = .instr (.jmp a) ∨
      (∃ b c, decode (fetch f) = .instr (.jeq a b c) ∧ s.readReg b = s.readReg c) ∨
      (∃ b c, decode (fetch f) = .instr (.jgt a b c) ∧ (s.readReg c).toNat < (s.readReg b).toNat)) →
    ∀ n t, stepsTo n s t ↔ t = s

/-! ### Contexts (44_call_exit.md) -/

/-- The name a CALL asks for: the non-zero registers from its start up to the first 0, at most 255 less the start of them,
where the start is B itself (`direct`) or the register B holds (`indirect`); there is no name exactly when no register
from the start on holds 0 (decisions D14, D15). -/
def Obligations.CallNameIsZeroTerminated : Prop :=
  ∀ (s : State) (b start : Byte),
    ((s.config.nameAddressing = .direct ∧ start = b) ∨ (s.config.nameAddressing = .indirect ∧ start = s.readReg b)) →
    (∀ name, callName s b = some name ↔
      ∃ z : Byte, start.toNat + name.length = z.toNat ∧ s.readReg z = 0 ∧
        ∀ j : Byte, start.toNat ≤ j.toNat → j.toNat < z.toNat →
          s.readReg j ≠ 0 ∧ name[j.toNat - start.toNat]? = some (s.readReg j)) ∧
    (callName s b = none ↔ ∀ j : Byte, start.toNat ≤ j.toNat → s.readReg j ≠ 0)

/-- CALL's call step: with a name, below the depth limit, and a file with a valid header, it pushes the child's frame
(stream after the header, pc 0, destination A) on the unchanged caller and changes nothing else (decisions D16, D20).
That it is decoded whatever C holds is decision D6 (log 14). -/
def Obligations.CallPushesChild : Prop :=
  ∀ (s : State) (f : Frame) (rest : List Frame) (a b : Byte) (name code : List Byte),
    s.frames = f :: rest → callName s b = some name →
    (∀ d, s.config.maxCallDepth = some d → s.frames.length < d) →
    load s name = some ([0xF2, 0xC3, 0x38, 0x01] ++ code) →
    (∀ c, decode [0x20, a, b, c] = .instr (.call a b)) ∧
    ∃ t, exec (.call a b) s = .next t ∧
      EffectIs noReg ({ code := code, pc := 0, dest := some a } :: f :: rest) s.out s.input s.status s t

/-- CALL's faults in their order: no name; then the depth limit, before anything is loaded; then a child that cannot be
loaded or whose first four bytes are not the header.
Nothing but the status changes (decisions D15, D16, D17, D21, D22, D37; log 1 for the next state).
That the first records operand B under indirect name addressing too is read by inference (log 19). -/
def Obligations.CallFaultsInOrder : Prop :=
  ∀ (s : State) (f : Frame) (rest : List Frame) (a b : Byte), s.frames = f :: rest →
    (callName s b = none →
      exec (.call a b) s =
        .next { s with status := .faulted { cause := .unterminatedCallName f.pc b, depth := s.frames.length } }) ∧
    (∀ name d, callName s b = some name → s.config.maxCallDepth = some d → d ≤ s.frames.length →
      exec (.call a b) s =
        .next { s with status := .faulted { cause := .callDepthExceeded f.pc s.frames.length, depth := s.frames.length } }) ∧
    (∀ name, callName s b = some name → (∀ d, s.config.maxCallDepth = some d → s.frames.length < d) →
      (∀ file, load s name = some file → file.take 4 ≠ [0xF2, 0xC3, 0x38, 0x01]) →
      exec (.call a b) s =
        .next { s with status := .faulted { cause := .childExecutionError f.pc name, depth := s.frames.length } })

/-- EXIT at the root halts the machine with the value of the register, which is the process exit status; in a subordinate
it pops the frame, writes that value to the caller's destination and moves the caller past its CALL, all in this step
(decisions D20, D38).
That it is decoded whatever B and C hold is decision D6 (log 14). -/
def Obligations.ExitEndsContext : Prop :=
  ∀ (s : State) (a : Byte),
    (∀ b c, decode [0x21, a, b, c] = .instr (.exit a)) ∧
    (∀ f, s.frames = [f] →
      ∃ t, exec (.exit a) s = .next t ∧ t.status.exitStatus = some (s.readReg a) ∧
        EffectIs noReg [f] s.out s.input (.halted (s.readReg a)) s t) ∧
    (∀ child caller rest d, s.frames = child :: caller :: rest → child.dest = some d →
      ∃ t, exec (.exit a) s = .next t ∧ t.readReg d = s.readReg a ∧
        EffectIs (· = d) ({ caller with pc := caller.pc + 4 } :: rest) s.out s.input s.status s t)

/-! ### The cycle (40_cycle.md) -/

/-- A step runs the decoded instruction: when the four stream bytes at the program counter decode to an instruction, the
step of the running machine is `exec` of it, with nothing around it (the order of the checks is decision D22). -/
def Obligations.StepRunsDecodedInstruction : Prop :=
  ∀ (s : State) (f : Frame) (rest : List Frame) (pre post : List Byte) (op a b c : Byte) (i : Instr),
    s.status = .running → s.frames = f :: rest → f.code = pre ++ op :: a :: b :: c :: post → pre.length = f.pc →
    decode [op, a, b, c] = .instr i →
    step s = exec i s

/-- The termination check comes first (the status 0 is decision D4): past the stream's end the root halts with 0 and a
subordinate returns 0 to its caller, popped and past its CALL in the same step (decisions D20, D38). -/
def Obligations.StepPastStreamEndsContext : Prop :=
  ∀ (s : State) (f : Frame) (rest : List Frame),
    s.status = .running → s.frames = f :: rest → f.code.length ≤ f.pc →
    (rest = [] → ∃ t, step s = .next t ∧ EffectIs noReg [f] s.out s.input (.halted 0) s t) ∧
    (∀ caller under d, rest = caller :: under → f.dest = some d →
      ∃ t, step s = .next t ∧ t.readReg d = 0 ∧
        EffectIs (· = d) ({ caller with pc := caller.pc + 4 } :: under) s.out s.input .running s t)

/-- A fetch of an incomplete last word faults, and nothing but the status changes (decision D5). -/
def Obligations.StepOnPartialWordFaults : Prop :=
  ∀ (s : State) (f : Frame) (rest : List Frame),
    s.status = .running → s.frames = f :: rest → f.pc < f.code.length → f.code.length < f.pc + 4 →
    step s = .next { s with status := .faulted { cause := .truncatedFetch f.pc, depth := s.frames.length } }

/-- An opcode outside the map faults with the pc and the opcode; a READ with another mode byte faults with the pc and the
mode (decision D7); nothing but the status changes (decision D21). -/
def Obligations.StepOnIllegalWordFaults : Prop :=
  ∀ (s : State) (f : Frame) (rest : List Frame) (pre post : List Byte) (op a b c : Byte),
    s.status = .running → s.frames = f :: rest → f.code = pre ++ op :: a :: b :: c :: post → pre.length = f.pc →
    (op ∉ [0x01, 0x02, 0x03, 0x04, 0x08, 0x09, 0x10, 0x11, 0x12, 0x20, 0x21] →
      step s = .next { s with status := .faulted { cause := .unknownOpcode f.pc op, depth := s.frames.length } }) ∧
    (op = 0x08 → b ≠ 0x01 → b ≠ 0x02 →
      step s = .next { s with status := .faulted { cause := .illegalReadMode f.pc b, depth := s.frames.length } })

/-- No step is defined from a halted or faulted machine (decision D21; the stop's name is the model's, assumption 2), and
the exit status is the halt code, or 1 after a fault. -/
def Obligations.EndedMachineTakesNoStep : Prop :=
  ∀ (s : State),
    (∀ code, s.status = .halted code → step s = .fault (.runEnded code)) ∧
    (∀ record, s.status = .faulted record → step s = .fault (.runEnded 1))

/-- Faults are precise (decision D21): a step that faults leaves registers, frames, output and input as they were, and
records the call depth. -/
def Obligations.FaultsArePrecise : Prop :=
  ∀ (s t : State) (record : FaultRecord), step s = .next t → t.status = .faulted record →
    record.depth = s.frames.length ∧ t = { s with status := .faulted record }

/-- No step both moves the program counter elsewhere than to the next word and writes a register ([derived] in R110),
counting steps that neither start nor end a context. -/
def Obligations.NoStepBranchesAndWrites : Prop :=
  ∀ (s t : State) (f g : Frame) (rest : List Frame), step s = .next t → s.frames = f :: rest → t.frames = g :: rest →
    g.pc ≠ f.pc + 4 → t.regs = s.regs

/-- A step moves the stack in one of four ways ([derived] in R110, decision D20): it leaves it, moves the active pc, pushes
a child with pc 0 on the unchanged stack, or pops the active frame and moves the caller past its CALL.
No other frame changes. -/
def Obligations.StackChangesOnlyAtItsTop : Prop :=
  ∀ (s t : State), step s = .next t →
    t.frames = s.frames ∨
    (∃ f rest pc, s.frames = f :: rest ∧ t.frames = { f with pc := pc } :: rest) ∨
    (∃ child, t.frames = child :: s.frames ∧ child.pc = 0 ∧ child.dest.isSome = true) ∨
    (∃ f caller rest, s.frames = f :: caller :: rest ∧ t.frames = { caller with pc := caller.pc + 4 } :: rest)

/-- A context's stream never changes during its life: of every context alive before and after a step, counted from the
root, the stream is the same. -/
def Obligations.StreamsNeverChange : Prop :=
  ∀ (s t : State) (k : Nat), step s = .next t → k < s.frames.length → k < t.frames.length →
    (t.frames.reverse[k]?).map Frame.code = (s.frames.reverse[k]?).map Frame.code

/-- Output is only ever added to, and of the input a step consumes at most the oldest line (decisions D9, D20). -/
def Obligations.OutputGrowsAndInputShrinks : Prop :=
  ∀ (s t : State), step s = .next t →
    (∃ cs, t.out = s.out ++ cs) ∧ t.input.ended = s.input.ended ∧
    (t.input.lines = s.input.lines ∨ ∃ l, s.input.lines = l :: t.input.lines)

/-- The parameters and the host's files are no state of the block: no step changes them (decisions D1, D20; that they stand
in State is the model's choice, assumptions 5 and 6). -/
def Obligations.StepKeepsParameters : Prop :=
  ∀ (s t : State), step s = .next t → t.config = s.config ∧ t.loader = s.loader

/-- An instruction writes only the registers its row of the port table names ([derived] in R22). -/
def Obligations.WritesOnlyItsRegisters : Prop :=
  ∀ (i : Instr) (s t : State) (r : Byte), exec i s = .next t → ¬ writesReg i s r → t.readReg r = s.readReg r

/-- An instruction depends only on the registers its row of the port table names ([derived] in R22): two states that agree on
everything but other registers give the same outcome, and the same value in every register it writes, unless it holds or
faults and so writes none in either. -/
def Obligations.DependsOnlyOnItsRegisters : Prop :=
  ∀ (i : Instr) (s s' : State),
    s'.frames = s.frames → s'.out = s.out → s'.input = s.input → s'.status = s.status → s'.loader = s.loader →
    s'.config = s.config → (∀ r, readsReg i s r → s'.readReg r = s.readReg r) →
    (∀ t, exec i s = .next t →
      ∃ t', exec i s' = .next t' ∧ t'.frames = t.frames ∧ t'.out = t.out ∧ t'.input = t.input ∧ t'.status = t.status ∧
        ((∀ r, writesReg i s r → t'.readReg r = t.readReg r) ∨ (t.regs = s.regs ∧ t'.regs = s'.regs))) ∧
    (∀ x, exec i s = .fault x → exec i s' = .fault x)

/-- A subordinate can neither see nor change its callers (decision D20): with other suspended callers of the same number, its step
gives the same registers, output, input and status, and leaves those callers as they were, or pops to them. -/
def Obligations.CalleeIsIsolatedFromCallers : Prop :=
  ∀ (s t : State) (f caller caller' : Frame) (rest rest' : List Frame),
    s.frames = f :: caller :: rest → rest'.length = rest.length → step s = .next t →
    ∃ t', step { s with frames := f :: caller' :: rest' } = .next t' ∧
      t'.regs = t.regs ∧ t'.out = t.out ∧ t'.input = t.input ∧ t'.status = t.status ∧
      ((∃ top, t.frames = top ++ caller :: rest ∧ t'.frames = top ++ caller' :: rest') ∨
       (t.frames = { caller with pc := caller.pc + 4 } :: rest ∧
        t'.frames = { caller' with pc := caller'.pc + 4 } :: rest'))

/-- The step is the spec's step relation on the block's state, the tuple of R34: a function of it, of the configuration and
of the host's answers, which are all that a step takes from the environment (decisions D1, D20; the environment in State
is logs 3, 5, 6).
The environment keeps its files and parameters, and of its lines the step takes at most the one it was answered.
And a run is a function of the answers (decisions D1, D9, D21): steps between which the host changes what it holds at the
ports as it likes, under one configuration and up to the end of the run, give the block's run on the answers they took. -/
def Obligations.StepIsBlockStep : Prop :=
  (∀ (s : State),
    blockOf (step s) = Block.step s.config s.inputs s.toBlock ∧
    ∀ t, step s = .next t →
      t.config = s.config ∧ t.loader = s.loader ∧
      (t.input = s.input ∨ ∃ l, s.inputs.inAnswer = some (.line l) ∧ s.input = { t.input with lines := l :: t.input.lines })) ∧
  (∀ (config : Config) (states : Nat → State), (∀ k, (states k).config = config) →
    (∀ k, (states k).status = .running → ∃ t, step (states k) = .next t ∧ (states (k + 1)).toBlock = t.toBlock) →
    (∀ k, (states k).status ≠ .running → (states (k + 1)).toBlock = (states k).toBlock) →
    ∀ n, Block.run config (fun k => (states k).inputs) n (states 0).toBlock = .next (states n).toBlock)

/-! ### Reset and launch (70_reset_and_hazards.md) -/

/-- Launch: a file whose first four bytes are the header enters the reset state of R231; any other, a shorter one too, faults
with InvalidHeader at depth 0 and takes no step (decisions D1, D2, D21, D37).
The stop's name in the last clause is the model's choice (log 2). -/
def Obligations.LaunchChecksHeaderAndResets : Prop :=
  ∀ (file : List Byte) (input : InPort) (files : List HostFile) (config : Config),
    (∀ code, file = [0xF2, 0xC3, 0x38, 0x01] ++ code →
      (∀ r, (State.launch file input files config).readReg r = 0) ∧
      (State.launch file input files config).frames = [{ code := code, pc := 0, dest := none }] ∧
      (State.launch file input files config).out = [] ∧
      (State.launch file input files config).status = .running ∧
      (State.launch file input files config).input = input) ∧
    ((∀ code, file ≠ [0xF2, 0xC3, 0x38, 0x01] ++ code) →
      (State.launch file input files config).status = .faulted { cause := .invalidHeader, depth := 0 } ∧
      step (State.launch file input files config) = .fault (.runEnded 1))

/-- The reset state: every register 0 (decision D2), one root context at pc 0 without a destination, no output, running.
Its stream is empty, nothing is at the ports, and the parameters have the values of 95_test_vectors.md, by the model's
choice (assumptions 3, 5, 6, 8). -/
def Obligations.ResetState : Prop :=
  (∀ r, State.reset.readReg r = 0) ∧
  State.reset.frames = [{ code := [], pc := 0, dest := none }] ∧
  State.reset.out = [] ∧ State.reset.status = .running ∧
  State.reset.input = { lines := [], ended := false } ∧ State.reset.loader = [] ∧ State.reset.config = Config.default

/-! ### The invariant (10_state.md R24–R27) -/

/-- The invariant holds at reset and after every launch, of a valid file or not (decisions D16, D20). -/
def Obligations.LaunchEstablishesInvariant : Prop :=
  Invariant State.reset = true ∧
  ∀ (file : List Byte) (input : InPort) (files : List HostFile) (config : Config),
    Invariant (State.launch file input files config) = true

/-- Every step keeps the invariant: every program counter stays a multiple of 4, every caller stands at the CALL that
names its callee's destination, only the root has none, and the depth limit holds ([derived] in R27, decisions D16, D20). -/
def Obligations.StepKeepsInvariant : Prop :=
  ∀ (s t : State), Invariant s = true → step s = .next t → Invariant t = true

/-- A machine that meets the invariant and is running always has a next state: the model's own stops are not reached
(assumptions 2, 10).
The next state is, for a READ without an answer, the same state (assumption 4), and for a fault the faulted one
(assumption 1). -/
def Obligations.RunningMachineAlwaysSteps : Prop :=
  ∀ (s : State), Invariant s = true → s.status = .running → ∃ t, step s = .next t

/-! ### The assembler (30_encoding.md Part B) -/

/-- The value parser's forms: the character form gives the character's code, however large; after the prefixes 0b, 0x and
0o come one or more digits of the base, hexadecimal letters in either case, and nothing else; any other token is an
optional sign and one or more decimal digits, and nothing else (decision D24 for the digit rules). -/
def Obligations.ValueParserForms : Prop :=
  (∀ c : Char, Asm.parseValue ['\'', c, '\''] = some (c.toNat : Int)) ∧
  (∀ (p : Char) (base : Nat) (cs : Asm.Text) (n : Int), (p, base) ∈ [('b', 2), ('x', 16), ('o', 8)] →
    (Asm.parseValue ('0' :: p :: cs) = some n ↔
      ∃ ds, ds ≠ [] ∧ spells base cs ds ∧ n = ((ds.foldl (fun v d => v * base + d) 0 : Nat) : Int))) ∧
  (∀ (tok : Asm.Text) (n : Int), (∀ c, tok ≠ ['\'', c, '\'']) → (∀ p cs, p ∈ ['b', 'x', 'o'] → tok ≠ '0' :: p :: cs) →
    (Asm.parseValue tok = some n ↔
      ∃ sign cs ds, tok = sign ++ cs ∧ sign ∈ [[], ['+'], ['-']] ∧ ds ≠ [] ∧ spells 10 cs ds ∧
        n = (if sign = ['-'] then -1 else 1) * ((ds.foldl (fun v d => v * 10 + d) 0 : Nat) : Int)))

/-- A label index written in decimal and parsed again is the same number, so a resolved jump target reaches the word. -/
def Obligations.ResolvedIndexParsesBack : Prop :=
  ∀ k : Nat, Asm.parseValue (Asm.decimalToken k) = some (k : Int) ∧
    (Asm.mask (k : Int)).toNat = k % 256

/-- Every file the assembler writes is the header and then the 4-byte words of well-formed instructions, one for each
instruction line in source order and none for a label or blank line. -/
def Obligations.AssembledFileIsWellFormed : Prop :=
  ∀ (src : List Asm.Text) (file : List Byte), Asm.assemble src = .ok file →
    ∃ (is : List Instr) (ls : List Asm.InstrLine),
      Asm.resolve src = .ok ls ∧ ls.map Asm.encodeLine = is.map .ok ∧
      ls.map Asm.InstrLine.line = (Asm.instrLines (Asm.readLines src)).map Asm.InstrLine.line ∧
      ls.map Asm.InstrLine.mnemonic = (Asm.instrLines (Asm.readLines src)).map Asm.InstrLine.mnemonic ∧
      ls.map (fun l => l.operands.tail) = (Asm.instrLines (Asm.readLines src)).map (fun l => l.operands.tail) ∧
      file = [0xF2, 0xC3, 0x38, 0x01] ++ is.flatMap encode ∧
      (∀ i ∈ is, i.WellFormed = true ∧ (encode i).length = 4) ∧
      is.length = (Asm.instrLines (Asm.readLines src)).length ∧
      file.length = 4 + 4 * is.length

/-- A root context that runs an assembled file always fetches a whole legal word: whenever its aligned pc is inside the
stream, the bytes there decode to an instruction. -/
def Obligations.AssembledWordsAlwaysDecode : Prop :=
  ∀ (src : List Asm.Text) (file code : List Byte) (f : Frame), Asm.assemble src = .ok file → streamOf file = some code →
    f.code = code → f.pc % 4 = 0 → f.pc < code.length → ∃ i, decode (fetch f) = .instr i ∧ i.WellFormed = true

/-- A jump to a name no label line binds never assembles.
That its first operand is a name even where it looks like a number is decision D26. -/
def Obligations.UndefinedLabelNeverAssembles : Prop :=
  ∀ (src : List Asm.Text) (l : Asm.InstrLine) (name : Asm.Text) (ops : List Asm.Text) (file : List Byte),
    l ∈ Asm.instrLines (Asm.readLines src) → Asm.isJumpToken l.mnemonic = true → l.operands = name :: ops →
    (∀ n, (n, Asm.Line.label name) ∉ Asm.readLines src) →
    Asm.assemble src ≠ .ok file

/-- A name bound twice never assembles (decision D27). -/
def Obligations.DuplicateLabelNeverAssembles : Prop :=
  ∀ (src : List Asm.Text) (name : Asm.Text) (m n : Nat) (file : List Byte),
    m ≠ n → (m, Asm.Line.label name) ∈ Asm.readLines src → (n, Asm.Line.label name) ∈ Asm.readLines src →
    Asm.assemble src ≠ .ok file

/-- A label names the number of instruction lines before it: in an assembled source, the word of a jump to a label holds
that number modulo 256 in its A byte (the masking of a label index is decision D29). -/
def Obligations.JumpEncodesLabelIndex : Prop :=
  ∀ (src : List Asm.Text) (is : List Instr) (before after : List (Nat × Asm.Line)) (n k : Nat) (name : Asm.Text)
    (l : Asm.InstrLine) (ops : List Asm.Text),
    Asm.assembleInstrs src = .ok is →
    Asm.readLines src = before ++ (n, Asm.Line.label name) :: after →
    (Asm.instrLines (Asm.readLines src))[k]? = some l →
    Asm.isJumpToken l.mnemonic = true → l.operands = name :: ops →
    ∃ i, is[k]? = some i ∧ (encode i)[1]? = some (BitVec.ofNat 8 (Asm.instrLines before).length)

/-- READ takes its mode in either case and PUT only in capitals (decision D23), with exactly these operand counts
(decision D33): READ's N form two and its S form three, PUT always three, its N form with a format of one character. -/
def Obligations.ModeTokenCaseAsymmetry : Prop :=
  ∀ (d n : Asm.Text),
    (∀ m sh, Asm.shapeOf .read [d, m] = some sh ↔ (m = ['N'] ∨ m = ['n']) ∧ sh = .readN d) ∧
    (∀ m sh, Asm.shapeOf .read [d, m, n] = some sh ↔ (m = ['S'] ∨ m = ['s']) ∧ sh = .readS d n) ∧
    (∀ m sh, Asm.shapeOf .put [d, m, n] = some sh ↔
      (m = ['N'] ∧ ∃ c, n = [c] ∧ sh = .putN d c) ∨ (m = ['S'] ∧ sh = .putS d n)) ∧
    (∀ ops, Asm.shapeOf .read ops ≠ none → ops.length = 2 ∨ ops.length = 3) ∧
    (∀ ops, Asm.shapeOf .put ops ≠ none → ops.length = 3)

/-- Resolving twice with the same label table yields what resolving once does, so the same index, for every list of lines
that resolves (log 25). -/
def Obligations.ResolutionIsIdempotent : Prop :=
  ∀ (table : List Asm.Binding) (ls ls' : List Asm.InstrLine),
    Asm.resolveLines table ls = .ok ls' → Asm.resolveLines table ls' = .ok ls'

/-- A failed assembly exits with a status that is not 0, whatever the error (which status it is, is free: log 24). -/
def Obligations.FailedAssemblyExitsNonZero : Prop :=
  ∀ (src : List Asm.Text) (e : AssemblyError), Asm.assemble src = .error e →
    ∃ st, (Asm.assemble src).exitStatus = some st ∧ st ≠ 0
end

