-- ==== Sys2Proof/Laws/Decode.lean ====
section
/-! SUPPORT. What the decoder can answer, said once. -/

namespace Sys2Proof

/-- The opcode map (30_encoding.md R62). -/
def opcodes : List Byte :=
  [opSet, opMov, opAdd, opSub, opRead, opPut, opJmp, opJeq, opJgt, opCall, opExit]

/-- A word and what it decodes to: one constructor for each row of the opcode table, one for a READ mode, one for an
opcode outside the map. -/
inductive Row : Byte → Byte → Byte → Byte → Decoded → Prop where
  | set (a b c) : Row opSet a b c (.instr (.set a b))
  | mov (a b c) : Row opMov a b c (.instr (.mov a b))
  | add (a b c) : Row opAdd a b c (.instr (.add a b c))
  | sub (a b c) : Row opSub a b c (.instr (.sub a b c))
  | readN (a c) : Row opRead a modeReadN c (.instr (.readN a))
  | readS (a c) : Row opRead a modeReadS c (.instr (.readS a c))
  | readMode (a b c) (hn : b ≠ modeReadN) (hs : b ≠ modeReadS) : Row opRead a b c (.illegalReadMode b)
  | putS (a c) : Row opPut a modePutS c (.instr (.putS a c))
  | putN (a b c) (hs : b ≠ modePutS) : Row opPut a b c (.instr (.putN a b))
  | jmp (a b c) : Row opJmp a b c (.instr (.jmp a))
  | jeq (a b c) : Row opJeq a b c (.instr (.jeq a b c))
  | jgt (a b c) : Row opJgt a b c (.instr (.jgt a b c))
  | call (a b c) : Row opCall a b c (.instr (.call a b))
  | exit (a b c) : Row opExit a b c (.instr (.exit a))
  | unknown (op a b c) (h : op ∉ opcodes) : Row op a b c (.unknownOpcode op)

theorem decode_word (op a b c : Byte) (rest : List Byte) : decode (op :: a :: b :: c :: rest) = decodeWord op a b c := rfl

/-- The decoder answers by the table. -/
theorem decodeWord_row (op a b c : Byte) : Row op a b c (decodeWord op a b c) := by
  by_cases hop : op ∈ opcodes
  · simp only [opcodes, List.mem_cons, List.not_mem_nil, or_false] at hop
    obtain rfl | rfl | rfl | rfl | rfl | rfl | rfl | rfl | rfl | rfl | rfl := hop
    · exact .set a b c
    · exact .mov a b c
    · exact .add a b c
    · exact .sub a b c
    · by_cases hn : b = modeReadN
      · subst hn; exact .readN a c
      · by_cases hs : b = modeReadS
        · subst hs; exact .readS a c
        · have h : decodeWord opRead a b c = .illegalReadMode b := (if_neg hn).trans (if_neg hs)
          exact h ▸ .readMode a b c hn hs
    · by_cases hs : b = modePutS
      · subst hs; exact .putS a c
      · have h : decodeWord opPut a b c = .instr (.putN a b) := if_neg hs
        exact h ▸ .putN a b c hs
    · exact .jmp a b c
    · exact .jeq a b c
    · exact .jgt a b c
    · exact .call a b c
    · exact .exit a b c
  · have hun := hop
    simp only [opcodes, List.mem_cons, List.not_mem_nil, or_false, not_or] at hop
    obtain ⟨h1, h2, h3, h4, h5, h6, h7, h8, h9, h10, h11⟩ := hop
    have h : decodeWord op a b c = .unknownOpcode op := by
      simp only [decodeWord, h1, h2, h3, h4, h5, h6, h7, h8, h9, h10, h11, if_false]
    exact h ▸ .unknown op a b c hun

/-- The decoder answers `truncated` for fewer than four bytes alone. -/
theorem decode_truncated_iff (bytes : List Byte) : decode bytes = .truncated ↔ bytes.length < 4 := by
  match bytes with
  | [] => simp [decode]
  | [_] => simp [decode]
  | [_, _] => simp [decode]
  | [_, _, _] => simp [decode]
  | op :: a :: b :: c :: rest =>
    have h := decodeWord_row op a b c
    have hne : decodeWord op a b c ≠ .truncated := by
      intro e
      rw [e] at h
      cases h
    constructor
    · exact fun e => absurd e hne
    · intro e
      simp only [List.length_cons] at e
      omega

end Sys2Proof
end

