-- ==== Sys2Proof/Laws/Inputs.lean ====
section
/-! SUPPORT. An environment built from answers gives those answers, and the block beside it is unchanged. -/

namespace Sys2Proof.Machine

/-- Files built for a request give its answer. -/
theorem load_answeringFiles {s : State} {name : List Byte} {answer : Option (List Byte)}
    (h : s.loader = answeringFiles (some name) answer) : load s name = answer := by
  cases answer <;> simp [load, h, answeringFiles]

@[simp] theorem withInputs_toBlock (b : Block) (config : Config) (inputs : StepInputs) :
    (b.withInputs config inputs).toBlock = b := rfl

@[simp] theorem withInputs_config (b : Block) (config : Config) (inputs : StepInputs) :
    (b.withInputs config inputs).config = config := rfl

/-- The port gives the IN answer. -/
theorem inLine_withInputs (b : Block) (config : Config) (inputs : StepInputs) :
    (inLine (b.withInputs config inputs)).map Prod.fst = inputs.inAnswer := by
  obtain ⟨inAnswer, loadAnswer⟩ := inputs
  match inAnswer with
  | none => rfl
  | some (.line l) => rfl
  | some .eof => rfl

/-! ### Runs -/

@[simp] theorem run_zero (config : Config) (answers : Nat → StepInputs) (b : Block) :
    Block.run config answers 0 b = .next b := rfl

/-- A run that is still running takes the block's step with the next answers. -/
theorem run_succ_of_running {config : Config} {answers : Nat → StepInputs} {n : Nat} {b c : Block}
    (h : Block.run config answers n b = .next c) (hc : c.status = .running) :
    Block.run config answers (n + 1) b = c.step config (answers n) := by
  simp [Block.run, h, hc, RunStatus.exitStatus]

/-- A run that has ended stays where it ended. -/
theorem run_succ_of_ended {config : Config} {answers : Nat → StepInputs} {n : Nat} {b c : Block}
    (h : Block.run config answers n b = .next c) (hc : c.status ≠ .running) :
    Block.run config answers (n + 1) b = .next c := by
  cases hs : c.status with
  | running => exact absurd hs hc
  | halted code => simp [Block.run, h, hs, RunStatus.exitStatus]
  | faulted record => simp [Block.run, h, hs, RunStatus.exitStatus]

/-- A launch's block does not depend on the environment. -/
theorem launch_toBlock (file : List Byte) (input : InPort) (files : List HostFile) (config : Config) :
    (State.launch file input files config).toBlock = Block.launch file := by
  unfold Block.launch State.launch
  cases streamOf file <;> rfl

end Sys2Proof.Machine
end

