-- ==== Sys2Proof/Laws/State.lean ====
section
/-! SUPPORT. Every field after every update of the state, and reading a register after a write. -/

namespace Sys2Proof.Machine

@[simp] theorem writeReg_frames (s : State) (i v : Byte) : (s.writeReg i v).frames = s.frames := rfl
@[simp] theorem writeReg_out (s : State) (i v : Byte) : (s.writeReg i v).out = s.out := rfl
@[simp] theorem writeReg_status (s : State) (i v : Byte) : (s.writeReg i v).status = s.status := rfl
@[simp] theorem writeReg_input (s : State) (i v : Byte) : (s.writeReg i v).input = s.input := rfl
@[simp] theorem writeReg_loader (s : State) (i v : Byte) : (s.writeReg i v).loader = s.loader := rfl
@[simp] theorem writeReg_config (s : State) (i v : Byte) : (s.writeReg i v).config = s.config := rfl

@[simp] theorem emit_regs (s : State) (cs : List Byte) : (emit cs s).regs = s.regs := rfl
@[simp] theorem emit_frames (s : State) (cs : List Byte) : (emit cs s).frames = s.frames := rfl
@[simp] theorem emit_out (s : State) (cs : List Byte) : (emit cs s).out = s.out ++ cs := rfl
@[simp] theorem emit_status (s : State) (cs : List Byte) : (emit cs s).status = s.status := rfl
@[simp] theorem emit_input (s : State) (cs : List Byte) : (emit cs s).input = s.input := rfl
@[simp] theorem emit_loader (s : State) (cs : List Byte) : (emit cs s).loader = s.loader := rfl
@[simp] theorem emit_config (s : State) (cs : List Byte) : (emit cs s).config = s.config := rfl

@[simp] theorem pushContext_regs (s : State) (c : List Byte) (d : Byte) : (pushContext c d s).regs = s.regs := rfl
@[simp] theorem pushContext_frames (s : State) (c : List Byte) (d : Byte) :
    (pushContext c d s).frames = { code := c, pc := 0, dest := some d } :: s.frames := rfl
@[simp] theorem pushContext_out (s : State) (c : List Byte) (d : Byte) : (pushContext c d s).out = s.out := rfl
@[simp] theorem pushContext_status (s : State) (c : List Byte) (d : Byte) :
    (pushContext c d s).status = s.status := rfl
@[simp] theorem pushContext_input (s : State) (c : List Byte) (d : Byte) : (pushContext c d s).input = s.input := rfl
@[simp] theorem pushContext_loader (s : State) (c : List Byte) (d : Byte) :
    (pushContext c d s).loader = s.loader := rfl
@[simp] theorem pushContext_config (s : State) (c : List Byte) (d : Byte) :
    (pushContext c d s).config = s.config := rfl

/-- A register is read from `regs` alone. -/
theorem readReg_congr {s t : State} (h : t.regs = s.regs) (r : Byte) : t.readReg r = s.readReg r := by
  simp [State.readReg, h]

@[simp] theorem readReg_emit (s : State) (cs : List Byte) (r : Byte) : (emit cs s).readReg r = s.readReg r := rfl
@[simp] theorem readReg_pushContext (s : State) (c : List Byte) (d r : Byte) :
    (pushContext c d s).readReg r = s.readReg r := rfl

/-- Read after write, same register. -/
@[simp] theorem readReg_writeReg_same (s : State) (i v : Byte) : (s.writeReg i v).readReg i = v := by
  simp [State.readReg, State.writeReg]

/-- Read after write, another register. -/
theorem readReg_writeReg_other (s : State) {i r : Byte} (v : Byte) (h : r ≠ i) :
    (s.writeReg i v).readReg r = s.readReg r := by
  have : i.toNat ≠ r.toNat := fun e => h (BitVec.eq_of_toNat_eq e.symm)
  simp [State.readReg, State.writeReg, this]

/-- Read after write, in one equation. -/
theorem readReg_writeReg (s : State) (i v r : Byte) :
    (s.writeReg i v).readReg r = if r = i then v else s.readReg r := by
  by_cases h : r = i
  · subst h; simp
  · simp [h, readReg_writeReg_other s v h]

end Sys2Proof.Machine
end

