-- ==== Sys2Proof/Laws/Ops.lean ====
section
/-! SUPPORT. What each shared operation can do, said once. -/

namespace Sys2Proof.Machine

/-! ### Operands -/

theorem aluAdd_toNat (p q : Byte) : (aluAdd p q).toNat = (p.toNat + q.toNat) % 256 := by
  simp [aluAdd]

theorem aluSub_toNat (p q : Byte) : ((aluSub p q).toNat : Int) = ((p.toNat : Int) - q.toNat) % 256 := by
  simp only [aluSub, BitVec.toNat_ofInt]
  omega

theorem aluEq_iff (p q : Byte) : aluEq p q = true ↔ p = q := by simp [aluEq]

theorem aluGtu_iff (p q : Byte) : aluGtu p q = true ↔ q.toNat < p.toNat := by simp [aluGtu]

/-- A ranged register index inside the file is exact. -/
theorem rangeIndex_toNat {base : Byte} {i : Nat} (h : base.toNat + i < 256) :
    (rangeIndex base i).toNat = base.toNat + i := by
  simp only [rangeIndex, BitVec.toNat_ofNat]
  omega

theorem rangeOverruns_iff (base count : Byte) : rangeOverruns base count = true ↔ 256 < base.toNat + count.toNat := by
  simp [rangeOverruns]

/-! ### Registers -/

section
variable (s : State) (base : Byte) (v : Nat → Byte)

@[simp] theorem writeRange_frames (n : Nat) : (s.writeRange base v n).frames = s.frames := by
  induction n with
  | zero => rfl
  | succ n ih => simp [State.writeRange, ih]

@[simp] theorem writeRange_out (n : Nat) : (s.writeRange base v n).out = s.out := by
  induction n with
  | zero => rfl
  | succ n ih => simp [State.writeRange, ih]

@[simp] theorem writeRange_status (n : Nat) : (s.writeRange base v n).status = s.status := by
  induction n with
  | zero => rfl
  | succ n ih => simp [State.writeRange, ih]

@[simp] theorem writeRange_input (n : Nat) : (s.writeRange base v n).input = s.input := by
  induction n with
  | zero => rfl
  | succ n ih => simp [State.writeRange, ih]

@[simp] theorem writeRange_loader (n : Nat) : (s.writeRange base v n).loader = s.loader := by
  induction n with
  | zero => rfl
  | succ n ih => simp [State.writeRange, ih]

@[simp] theorem writeRange_config (n : Nat) : (s.writeRange base v n).config = s.config := by
  induction n with
  | zero => rfl
  | succ n ih => simp [State.writeRange, ih]

/-- A range write inside the file, read back: the value of its position inside the range, the old value outside. -/
theorem readReg_writeRange {n : Nat} (h : base.toNat + n ≤ 256) (r : Byte) :
    (s.writeRange base v n).readReg r =
      if base.toNat ≤ r.toNat ∧ r.toNat < base.toNat + n then v (r.toNat - base.toNat) else s.readReg r := by
  induction n with
  | zero =>
    have : ¬ (base.toNat ≤ r.toNat ∧ r.toNat < base.toNat + 0) := by omega
    simp only [State.writeRange, this, if_false]
  | succ n ih =>
    have hi := rangeIndex_toNat (base := base) (i := n) (by omega)
    simp only [State.writeRange, readReg_writeReg, ih (by omega)]
    by_cases hr : r = rangeIndex base n
    · subst hr
      simp [hi]
    · have hne : r.toNat ≠ base.toNat + n := fun e => hr (BitVec.eq_of_toNat_eq (by omega))
      have : (base.toNat ≤ r.toNat ∧ r.toNat < base.toNat + (n + 1)) ↔
          (base.toNat ≤ r.toNat ∧ r.toNat < base.toNat + n) := by omega
      simp only [hr, this, if_false]

end

/-! ### Program counter -/

theorem setPc_cons {s : State} {f : Frame} {rest : List Frame} (h : s.frames = f :: rest) (pc : Nat) :
    setPc pc s = .next { s with frames := { f with pc := pc } :: rest } := by
  simp [setPc, h]

theorem advance_cons {s : State} {f : Frame} {rest : List Frame} (h : s.frames = f :: rest) :
    advance s = .next { s with frames := { f with pc := f.pc + 4 } :: rest } := by
  simp [advance, setPc, h]

theorem jumpIf_cons {s : State} {f : Frame} {rest : List Frame} (h : s.frames = f :: rest) (taken : Bool) (target : Byte) :
    jumpIf taken target s =
      .next { s with frames := { f with pc := if taken then targetOffset target else f.pc + 4 } :: rest } := by
  cases taken <;> simp [jumpIf, setPc, advance, h]

/-- Advancing, inverted: it answers a next state only with an active frame, whose pc moves by 4. -/
theorem advance_next {s t : State} (h : advance s = .next t) :
    ∃ f rest, s.frames = f :: rest ∧ t = { s with frames := { f with pc := f.pc + 4 } :: rest } := by
  cases hf : s.frames with
  | nil => simp [advance, hf] at h
  | cons f rest => exact ⟨f, rest, rfl, by rw [advance_cons hf] at h; cases h; rfl⟩

theorem jumpIf_next {s t : State} {taken : Bool} {target : Byte} (h : jumpIf taken target s = .next t) :
    ∃ f rest, s.frames = f :: rest ∧
      t = { s with frames := { f with pc := if taken then targetOffset target else f.pc + 4 } :: rest } := by
  cases hf : s.frames with
  | nil => cases taken <;> simp [jumpIf, setPc, advance, hf] at h
  | cons f rest => exact ⟨f, rest, rfl, by rw [jumpIf_cons hf] at h; cases h; rfl⟩

/-! ### Ports -/

/-- An IN answer, inverted: a line is taken off the queue, `eof` changes nothing. -/
theorem inLine_some {s s' : State} {ans : InAnswer} (h : inLine s = some (ans, s')) :
    (∃ l ls, s.input.lines = l :: ls ∧ ans = .line l ∧ s' = { s with input := { s.input with lines := ls } }) ∨
    (s.input.lines = [] ∧ s.input.ended = true ∧ ans = .eof ∧ s' = s) := by
  unfold inLine at h
  split at h
  · rename_i l ls hl
    cases h
    exact .inl ⟨l, ls, hl, rfl, rfl⟩
  · rename_i hl
    split at h
    · rename_i he
      cases h
      exact .inr ⟨hl, he, rfl, rfl⟩
    · cases h

theorem inLine_line {s : State} {l : List Nat} {ls : List (List Nat)} (h : s.input.lines = l :: ls) :
    inLine s = some (.line l, { s with input := { s.input with lines := ls } }) := by
  simp [inLine, h]

theorem inLine_eof {s : State} (h : s.input.lines = []) (he : s.input.ended = true) :
    inLine s = some (.eof, s) := by
  simp [inLine, h, he]

theorem inLine_hold {s : State} (h : s.input.lines = []) (he : s.input.ended = false) : inLine s = none := by
  simp [inLine, h, he]

/-! ### Contexts -/

theorem endContext_root {s : State} {f : Frame} (h : s.frames = [f]) (code : Byte) :
    endContext code s = .next { s with status := .halted code } := by
  simp [endContext, h]

theorem endContext_subordinate {s : State} {child caller : Frame} {rest : List Frame} {dest : Byte}
    (h : s.frames = child :: caller :: rest) (hd : child.dest = some dest) (code : Byte) :
    endContext code s =
      .next (State.writeReg { s with frames := { caller with pc := caller.pc + 4 } :: rest } dest code) := by
  simp [endContext, h, hd]

/-- The end of a context, inverted. -/
theorem endContext_next {code : Byte} {s t : State} (h : endContext code s = .next t) :
    (∃ f, s.frames = [f] ∧ t = { s with status := .halted code }) ∨
    (∃ child caller rest dest, s.frames = child :: caller :: rest ∧ child.dest = some dest ∧
      t = State.writeReg { s with frames := { caller with pc := caller.pc + 4 } :: rest } dest code) := by
  unfold endContext at h
  split at h
  · cases h
  · rename_i f hf
    cases h
    exact .inl ⟨f, hf, rfl⟩
  · rename_i child caller rest hf
    split at h
    · cases h
    · rename_i dest hd
      cases h
      exact .inr ⟨child, caller, rest, dest, hf, hd, rfl⟩

end Sys2Proof.Machine
end

