-- ==== Sys2Proof/Laws/PerInstr.lean ====
section
/-! SUPPORT. Facts proved instruction by instruction. -/

namespace Sys2Proof.Laws.EncodedLength

/-- Every instruction, regardless of mnemonic, occupies exactly 4 bytes (30_encoding.md R60). -/
def Statement (i : Instr) : Prop := (encode i).length = 4

theorem set (dest value : Byte) : Statement (.set dest value) := rfl
theorem mov (dest src : Byte) : Statement (.mov dest src) := rfl
theorem add (dest src1 src2 : Byte) : Statement (.add dest src1 src2) := rfl
theorem sub (dest src1 src2 : Byte) : Statement (.sub dest src1 src2) := rfl
theorem readN (dest : Byte) : Statement (.readN dest) := rfl
theorem readS (base count : Byte) : Statement (.readS base count) := rfl
theorem putS (base count : Byte) : Statement (.putS base count) := rfl
theorem putN (src fmt : Byte) : Statement (.putN src fmt) := rfl
theorem jmp (target : Byte) : Statement (.jmp target) := rfl
theorem jeq (target src1 src2 : Byte) : Statement (.jeq target src1 src2) := rfl
theorem jgt (target src1 src2 : Byte) : Statement (.jgt target src1 src2) := rfl
theorem call (dest nameBase : Byte) : Statement (.call dest nameBase) := rfl
theorem exit (src : Byte) : Statement (.exit src) := rfl

end Sys2Proof.Laws.EncodedLength
end

