-- ==== Sys2Proof/Laws/Step.lean ====
section
/-! SUPPORT. What an instruction and a step can do, said once. -/

namespace Sys2Proof.Machine

/-- The shapes of an instruction's next state: the machine has an active frame and
it raised, held, advanced, jumped, called, or ended its context. -/
inductive Shape (s t : State) : Prop where
  /-- A fault: the status alone changes. -/
  | raised (cause : FaultCause)
      (h : t = { s with status := .faulted { cause := cause, depth := s.frames.length } })
  /-- The READ hold. -/
  | held (h : t = s)
  /-- Registers, output and input may change, and the program counter moves. -/
  | moved (f : Frame) (rest : List Frame) (pc : Nat) (hf : s.frames = f :: rest)
      (h : t.frames = { f with pc := pc } :: rest) (hpc : pc = f.pc + 4 ∨ (∃ a : Byte, pc = targetOffset a) ∧ t.regs = s.regs)
      (hout : ∃ cs, t.out = s.out ++ cs) (hin : t.input = s.input ∨ ∃ l, s.input.lines = l :: t.input.lines ∧ t.input.ended = s.input.ended)
      (hst : t.status = s.status) (hl : t.loader = s.loader) (hc : t.config = s.config)
  /-- A child starts. -/
  | called (dest : Byte) (name file code : List Byte) (hd : depthReached s = false) (hl : load s name = some file)
      (hf : streamOf file = some code) (h : t = pushContext code dest s)
  /-- The context ends. -/
  | ended (code : Byte) (h : endContext code s = .next t)

theorem moved_of_advance {s u t : State} (h : advance u = .next t) (hf : u.frames = s.frames)
    (hout : ∃ cs, u.out = s.out ++ cs)
    (hin : u.input = s.input ∨ ∃ l, s.input.lines = l :: u.input.lines ∧ u.input.ended = s.input.ended)
    (hst : u.status = s.status) (hl : u.loader = s.loader) (hc : u.config = s.config) : Shape s t := by
  obtain ⟨f, rest, hu, rfl⟩ := advance_next h
  exact .moved f rest (f.pc + 4) (hf ▸ hu) rfl (.inl rfl) hout hin hst hl hc

theorem moved_of_jumpIf {s t : State} {taken : Bool} {target : Byte} (h : jumpIf taken target s = .next t) : Shape s t := by
  obtain ⟨f, rest, hs, rfl⟩ := jumpIf_next h
  refine .moved f rest _ hs rfl ?_ ⟨[], by simp⟩ (.inl rfl) rfl rfl rfl
  cases taken
  · exact .inl rfl
  · exact .inr ⟨⟨target, rfl⟩, rfl⟩

/-- Every instruction that answers a next state has one of the shapes. -/
theorem exec_shape {i : Instr} {s t : State} (h : exec i s = .next t) : Shape s t := by
  cases i with
  | set d v => exact moved_of_advance h rfl ⟨[], by simp⟩ (.inl rfl) rfl rfl rfl
  | mov d r => exact moved_of_advance h rfl ⟨[], by simp⟩ (.inl rfl) rfl rfl rfl
  | add d a b => exact moved_of_advance h rfl ⟨[], by simp⟩ (.inl rfl) rfl rfl rfl
  | sub d a b => exact moved_of_advance h rfl ⟨[], by simp⟩ (.inl rfl) rfl rfl rfl
  | readN d =>
    simp only [exec, execReadN] at h
    split at h
    · cases h; exact .held rfl
    · rename_i ans s' hin
      obtain ⟨l, ls, hl, rfl, rfl⟩ | ⟨hl, he, rfl, rfl⟩ := inLine_some hin
      · exact moved_of_advance h rfl ⟨[], by simp⟩ (.inr ⟨l, hl, rfl⟩) rfl rfl rfl
      · exact moved_of_advance h rfl ⟨[], by simp⟩ (.inl rfl) rfl rfl rfl
  | readS b c =>
    simp only [exec, execReadS] at h
    split at h
    · cases h
    · split at h
      · cases h; exact .raised _ rfl
      · split at h
        · cases h; exact .held rfl
        · rename_i ans s' hin
          obtain ⟨l, ls, hl, rfl, rfl⟩ | ⟨hl, he, rfl, rfl⟩ := inLine_some hin
          · exact moved_of_advance h (by simp) ⟨[], by simp⟩ (.inr ⟨l, by simpa using hl, by simp⟩) (by simp) (by simp) (by simp)
          · exact moved_of_advance h (by simp) ⟨[], by simp⟩ (.inl (by simp)) (by simp) (by simp) (by simp)
  | putS b c =>
    simp only [exec, execPutS] at h
    split at h
    · cases h
    · split at h
      · cases h; exact .raised _ rfl
      · exact moved_of_advance h rfl ⟨_, rfl⟩ (.inl rfl) rfl rfl rfl
  | putN r x => exact moved_of_advance h rfl ⟨_, rfl⟩ (.inl rfl) rfl rfl rfl
  | jmp a => simp only [exec, execJmp] at h; exact moved_of_jumpIf h
  | jeq a b c => simp only [exec, execJeq] at h; exact moved_of_jumpIf h
  | jgt a b c => simp only [exec, execJgt] at h; exact moved_of_jumpIf h
  | call d b =>
    simp only [exec, execCall] at h
    split at h
    · cases h
    · split at h
      · cases h; exact .raised _ rfl
      · rename_i name _
        split at h
        · cases h; exact .raised _ rfl
        · rename_i hd
          split at h
          · cases h; exact .raised _ rfl
          · rename_i code hc
            cases h
            obtain ⟨file, hfile, hcode⟩ := Option.bind_eq_some_iff.mp hc
            exact .called d name file code (by simpa using hd) hfile hcode rfl
  | exit r => exact .ended _ h

/-- A step answers a next state only from a running machine. -/
theorem step_running {s t : State} (h : step s = .next t) : s.status = .running := by
  unfold step at h
  split at h
  · rename_i hs
    cases hst : s.status with
    | running => rfl
    | halted c => simp [hst, RunStatus.exitStatus] at hs
    | faulted r => simp [hst, RunStatus.exitStatus] at hs
  · cases h

theorem step_of_running {s : State} (h : s.status = .running) : step s = cycle s := by
  simp [step, h, RunStatus.exitStatus]

/-- A running machine's step: the end of the stream, or what the decoder answered. -/
theorem step_cases {s : State} {f : Frame} {rest : List Frame} (h : s.status = .running) (hf : s.frames = f :: rest) :
    step s = if f.code.length ≤ f.pc then endContext 0 s else runDecoded f.pc (decode (fetch f)) s := by
  simp [step_of_running h, cycle, hf]

/-- Every step that answers a next state has one of the shapes. -/
theorem step_shape {s t : State} (h : step s = .next t) : Shape s t := by
  have hr := step_running h
  rw [step_of_running hr] at h
  simp only [cycle] at h
  split at h
  · cases h
  · split at h
    · exact .ended _ h
    · unfold runDecoded at h
      split at h
      · cases h; exact .raised _ rfl
      · cases h; exact .raised _ rfl
      · cases h; exact .raised _ rfl
      · exact exec_shape h

/-! ### Where a program comes from (assumption 8) -/

/-- The reset state is the launch of the header-only file, with nothing at the ports. -/
theorem launch_header_only :
    State.launch header { lines := [], ended := false } [] Config.default = State.reset := rfl

theorem tableWordBytes_length (nbits w : Nat) : (tableWordBytes nbits w).length = 4 := rfl

/-- A word placed at an offset is read back from it. -/
theorem memRead_placeAt (code : List Byte) (addr : Nat) (bytes : List Byte) :
    memRead (placeAt code addr bytes) addr bytes.length = bytes := by
  have h : (code.take addr ++ List.replicate (addr - code.length) (0 : Byte)).length = addr := by
    simp only [List.length_append, List.length_take, List.length_replicate]
    omega
  rw [memRead, placeAt, List.append_assoc, List.drop_append_of_le_length (Nat.le_of_eq h.symm),
    List.drop_of_length_le (Nat.le_of_eq h), List.nil_append, List.take_left]

/-- With a word placed, the next step runs what the decoder reads from it. -/
theorem step_withFetchWord (s : State) (nbits w : Nat) {f : Frame} {rest : List Frame} (hf : s.frames = f :: rest) :
    step (s.withFetchWord nbits w) =
      runDecoded f.pc (decode (tableWordBytes nbits w)) (s.withFetchWord nbits w) := by
  have hlen : f.pc < (placeAt f.code f.pc (tableWordBytes nbits w)).length := by
    simp only [placeAt, List.length_append, List.length_take, List.length_replicate, tableWordBytes_length]
    omega
  have hfr : (s.withFetchWord nbits w).frames =
      { f with code := placeAt f.code f.pc (tableWordBytes nbits w) } :: rest := by
    simp [State.withFetchWord, State.placeWord, hf]
  have hst : (s.withFetchWord nbits w).status = .running := by
    simp [State.withFetchWord, State.placeWord, hf]
  have hfetch : fetch { f with code := placeAt f.code f.pc (tableWordBytes nbits w) } = tableWordBytes nbits w :=
    memRead_placeAt f.code f.pc (tableWordBytes nbits w)
  rw [step_cases hst hfr, if_neg (by simpa using hlen), hfetch]

end Sys2Proof.Machine
end

