-- ==== Sys2Proof/Laws/Text.lean ====
section
/-! SUPPORT. What the text functions answer: digits, the entries of the PUT_RENDER table, a resolved line, an error's exit
status. -/

namespace Sys2Proof.Machine

/-- A character is read as the digit it spells, in bases up to 16. -/
theorem digitIn_eq_some_iff {base : Nat} (hb : base ≤ 16) (c d : Nat) : digitIn base c = some d ↔ isDigitOf base c d := by
  unfold digitIn digitValue isDigitOf
  split_ifs <;> simp only [Option.ite_none_right_eq_some, Option.some.injEq, false_iff] <;> omega

theorem digitIn_eq_none_iff {base : Nat} (hb : base ≤ 16) (c : Nat) : digitIn base c = none ↔ ∀ d, ¬ isDigitOf base c d := by
  rw [Option.eq_none_iff_forall_ne_some]
  exact forall_congr' fun d => not_congr (digitIn_eq_some_iff hb c d)

/-- Whatever the places, the digits stand in the text, in order. -/
theorem digits_sublist_fillPlaces (places : List RenderPlace) (digits : List Byte) :
    digits.Sublist (fillPlaces places digits) := by
  induction places generalizing digits with
  | nil => exact List.Sublist.refl digits
  | cons p places ih =>
    cases p with
    | code c => exact (ih digits).cons c
    | digit =>
      cases digits with
      | nil => exact List.nil_sublist _
      | cons d digits => exact (ih digits).cons_cons d

/-- Every text that holds the digits in order is theirs in some places. -/
theorem exists_fillPlaces {digits text : List Byte} (h : digits.Sublist text) :
    ∃ places, fillPlaces places digits = text := by
  induction h with
  | slnil => exact ⟨[], rfl⟩
  | cons c _ ih =>
    obtain ⟨places, hp⟩ := ih
    exact ⟨.code c :: places, by rw [fillPlaces, hp]⟩
  | cons_cons d _ ih =>
    obtain ⟨places, hp⟩ := ih
    exact ⟨.digit :: places, by rw [fillPlaces, hp]⟩

/-- What PUT-N prints: the digits, alone or in the places of an entry. -/
theorem putRender_cases (config : Config) (fmt value : Byte) :
    putRender config fmt value = defaultRender fmt value ∨
    ∃ r ∈ config.putRender, r.fmt = fmt ∧ r.value = value ∧
      putRender config fmt value = fillPlaces r.places (defaultRender fmt value) := by
  unfold putRender
  split
  · rename_i r h
    have hp := List.find?_some h
    simp only [Bool.and_eq_true, beq_iff_eq] at hp
    exact .inr ⟨r, List.mem_of_find?_eq_some h, hp.1, hp.2, rfl⟩
  · exact .inl rfl

namespace Asm

/-- Pass 2 on one line, inverted: a line that is no jump is left, and in a jump the first operand alone is replaced, by the
index of the label the line references. -/
theorem resolveLine_ok {table : List Binding} {l l' : InstrLine} (h : resolveLine table l = .ok l') :
    (isJumpToken l.mnemonic = false ∧ l' = l) ∨
    (isJumpToken l.mnemonic = true ∧ ∃ first ops k, l.operands = first :: ops ∧
      lookupLabel table (l.labelOf first) = some k ∧
      l' = { l with operands := decimalToken k :: ops, label := some (l.labelOf first) }) := by
  unfold resolveLine at h
  split at h
  · rename_i hj
    split at h
    · cases h
    · rename_i first ops ho
      split at h
      · cases h
      · rename_i k hk
        cases h
        exact .inr ⟨hj, first, ops, k, ho, hk, rfl⟩
  · rename_i hj
    cases h
    exact .inl ⟨by simpa using hj, rfl⟩

/-- A line of the source references the label its first operand names: nothing has been resolved in it. -/
theorem instrLines_label {lines : List (Nat × Line)} {l : InstrLine} (h : l ∈ instrLines lines) : l.label = none := by
  induction lines with
  | nil => cases h
  | cons x rest ih =>
    obtain ⟨n, line⟩ := x
    cases line with
    | blank => exact ih h
    | label name => exact ih h
    | instr m ops =>
      obtain rfl | h := List.mem_cons.mp h
      · rfl
      · exact ih h

/-- The exit status of an error. -/
theorem failureStatus_toNat (e : AssemblyError) : (failureStatus e).toNat = (Config.failureStatusAboveOne e).val + 1 := by
  have := (Config.failureStatusAboveOne e).isLt
  simp only [failureStatus, BitVec.toNat_ofNat]
  omega

end Asm

end Sys2Proof.Machine
end

