-- ==== Sys2Proof/Tests/Slice0.lean ====
section
/-! SUPPORT. Tests with the expected results of 95_test_vectors.md, and for every statement with hypotheses a witness that
meets them. -/

namespace Sys2Proof.Tests

open Sys2Proof.Machine

/-! ### Helpers -/

/-- Write registers of a state. -/
def withRegs (rs : List (Byte × Byte)) (s : State) : State := rs.foldl (fun s p => s.writeReg p.1 p.2) s

/-- A root with this stream at this pc, and these registers. -/
def rootAt (pc : Nat) (code : List Byte) (rs : List (Byte × Byte)) : State :=
  withRegs rs { State.reset with frames := [{ code := code, pc := pc, dest := none }] }

/-- The same with these lines at IN. -/
def rootWithLines (lines : List (List Nat)) (code : List Byte) (rs : List (Byte × Byte)) : State :=
  { rootAt 0 code rs with input := { lines := lines, ended := false } }

/-- The characters of a text as IN delivers them. -/
def line (t : String) : List Nat := t.toList.map Char.toNat

/-- The state of a step that answers next. -/
def after (r : Result) : Option State :=
  match r with
  | .next t => some t
  | .fault _ => none
  | .refused _ => none

/-- The state after a step. -/
def stepped (s : State) : State := (after (step s)).getD s

/-- Some registers of the next state. -/
def regsAfter (s : State) (rs : List Byte) : Option (List Byte) := (after (step s)).map fun t => rs.map t.readReg

/-- The program counters of the next state, active context first. -/
def pcsAfter (s : State) : Option (List Nat) := (after (step s)).map fun t => t.frames.map Frame.pc

def outAfter (s : State) : Option (List Byte) := (after (step s)).map fun t => t.out

def statusAfter (s : State) : Option RunStatus := (after (step s)).map fun t => t.status

def linesAfter (s : State) : Option (List (List Nat)) := (after (step s)).map fun t => t.input.lines

/-- A fault of the spec's with its depth. -/
def faultWith (cause : FaultCause) (depth : Nat) : Option RunStatus := some (.faulted { cause := cause, depth := depth })

/-- The caller of the L2-C rows: CALL 5 100 at pc 8, the name `k` at register 100, and one file of that name. -/
def caller (file : List Byte) : State :=
  { rootAt 8 [0x01, 0x64, 0x6B, 0x00, 0x01, 0x65, 0x00, 0x00, 0x20, 0x05, 0x64, 0x00] [(100, 0x6B)] with
    loader := [{ name := [0x6B], bytes := file }] }

/-- A subordinate with this stream at its start, called by the CALL of `caller`. -/
def subordinate (code : List Byte) (rs : List (Byte × Byte)) : State :=
  withRegs rs { caller [] with frames := { code := code, pc := 0, dest := some 5 } :: (caller []).frames }

/-- CALL 5 250 with no register at 0. -/
def unterminated : State :=
  { rootAt 0 [0x20, 0x05, 0xFA, 0x00] [] with regs := Vector.replicate 256 0x6B }

/-- The caller with a depth limit. -/
def limited (d : Nat) (file : List Byte) : State :=
  { caller file with config := { Config.default with maxCallDepth := some d } }

/-- A source file of these lines. -/
def source (ls : List String) : List Asm.Text := ls.map String.toList

/-- The words of a source file. -/
def wordsOf (ls : List String) : Asm.Outcome (List (List Byte)) :=
  (Asm.assembleInstrs (source ls)).bind fun is => .ok (is.map encode)

/-! ### Well-formedness -/

theorem test_putn_with_the_puts_code_is_refused : (Instr.putN 3 0x80).WellFormed = false := by decide

theorem test_putn_beside_the_puts_code_is_accepted :
    (Instr.putN 3 0x7F).WellFormed = true ∧ (Instr.putN 3 0x81).WellFormed = true := by decide

/-! ### Decoding: words written out from 30_encoding.md R61, R62 -/

theorem test_decode_set : decode [0x01, 0x05, 0x2A, 0x00] = .instr (.set 5 42) := by decide
theorem test_decode_mov : decode [0x02, 0x09, 0x03, 0x00] = .instr (.mov 9 3) := by decide
theorem test_decode_add : decode [0x03, 0x03, 0x04, 0x05] = .instr (.add 3 4 5) := by decide
theorem test_decode_sub : decode [0x04, 0x03, 0x04, 0x05] = .instr (.sub 3 4 5) := by decide
theorem test_decode_readN : decode [0x08, 0x0A, 0x01, 0x00] = .instr (.readN 10) := by decide
theorem test_decode_readS : decode [0x08, 0x14, 0x02, 0x04] = .instr (.readS 20 4) := by decide
theorem test_decode_putN : decode [0x09, 0x0C, 0x78, 0x00] = .instr (.putN 12 0x78) := by decide
theorem test_decode_putS : decode [0x09, 0x14, 0x80, 0x04] = .instr (.putS 20 4) := by decide
theorem test_decode_jmp : decode [0x10, 0x08, 0x00, 0x00] = .instr (.jmp 8) := by decide
theorem test_decode_jeq : decode [0x11, 0x06, 0x00, 0x02] = .instr (.jeq 6 0 2) := by decide
theorem test_decode_jgt : decode [0x12, 0x03, 0x00, 0x02] = .instr (.jgt 3 0 2) := by decide
theorem test_decode_call : decode [0x20, 0x05, 0x64, 0x00] = .instr (.call 5 100) := by decide
theorem test_decode_exit : decode [0x21, 0x0D, 0x00, 0x00] = .instr (.exit 13) := by decide

/-- L2-D8, L2-D9 and the edges of the gaps of R63. -/
theorem test_decode_unassigned_opcodes :
    ([0x00, 0x05, 0x07, 0x0A, 0x0F, 0x13, 0x1F, 0x22, 0x80, 0xFF] : List Byte).map (fun op => decode [op, 0, 0, 0]) =
      ([0x00, 0x05, 0x07, 0x0A, 0x0F, 0x13, 0x1F, 0x22, 0x80, 0xFF] : List Byte).map Decoded.unknownOpcode := by decide

/-- L2-D10, L2-D11. -/
theorem test_decode_illegal_read_modes :
    decode [0x08, 0, 3, 0] = .illegalReadMode 3 ∧ decode [0x08, 0, 0, 0] = .illegalReadMode 0 := by decide

theorem test_decode_short_input : decode [0x01, 0x00, 0x05] = .truncated := by decide

/-- The opcode table's numbering (spec/opcode_table.json, `word`). -/
theorem test_decode_table_words :
    decodeTableWord 32 0x01052A00 = some (.set 5 42) ∧ decodeTableWord 32 0x08140204 = some (.readS 20 4) ∧
    decodeTableWord 32 0x20056400 = some (.call 5 100) ∧ decodeTableWord 32 0x00000000 = none := by decide

/-- A placed word is what the next step runs. -/
theorem test_fetch_word_runs_next :
    regsAfter (State.reset.withFetchWord 32 0x01052A00) [5] = some [42] ∧
    pcsAfter (State.reset.withFetchWord 32 0x10080000) = some [32] := by decide

/-! ### Launch, fetch, termination (L2-D) -/

/-- L2-D1. -/
theorem test_launch_then_step :
    regsAfter (State.launch [0xF2, 0xC3, 0x38, 0x01, 0x01, 0x00, 0x05, 0x00] State.reset.input [] Config.default) [0] =
      some [5] := by decide

/-- L2-D3, L2-D4. -/
theorem test_launch_refuses_header :
    (State.launch [0xF2, 0xC3, 0x38, 0x02, 0x01] State.reset.input [] Config.default).status =
      .faulted { cause := .invalidHeader, depth := 0 } ∧
    (State.launch [0xF2, 0xC3] State.reset.input [] Config.default).status =
      .faulted { cause := .invalidHeader, depth := 0 } := by decide

/-- L2-D2. -/
theorem test_empty_stream_halts : statusAfter State.reset = some (.halted 0) := by decide

/-- L2-D6, L2-D7. -/
theorem test_partial_word_faults :
    statusAfter (rootAt 4 [0x01, 0x00, 0x05, 0x00, 0x21, 0x00] []) = faultWith (.truncatedFetch 4) 1 ∧
    statusAfter (rootAt 0 [0x01, 0x00, 0x05] []) = faultWith (.truncatedFetch 0) 1 := by decide

/-- L1-10, L2-D10, L2-C12. -/
theorem test_illegal_words_fault :
    statusAfter (rootAt 4 [0x01, 0x00, 0x01, 0x00, 0xFF, 0x00, 0x00, 0x00] []) = faultWith (.unknownOpcode 4 0xFF) 1 ∧
    statusAfter (rootAt 0 [0x08, 0x00, 0x03, 0x00] []) = faultWith (.illegalReadMode 0 3) 1 ∧
    statusAfter (subordinate [0xFF, 0x00, 0x00, 0x00] []) = faultWith (.unknownOpcode 0 0xFF) 2 := by decide

/-- 10_state.md R29, 00_scope.md R8. -/
theorem test_ended_machine_stops :
    step { State.reset with status := .halted 156 } = .fault (.runEnded 156) := rfl

/-! ### Register and ALU (L1-6, L2-A) -/

/-- L2-A1. -/
theorem test_set : regsAfter (rootAt 0 [0x01, 0x05, 0x2A, 0x00] []) [5] = some [42] ∧
    pcsAfter (rootAt 0 [0x01, 0x05, 0x2A, 0x00] []) = some [4] := by decide

/-- L2-A3, L2-D12. -/
theorem test_set_top_register : regsAfter (rootAt 0 [0x01, 0xFF, 0xFF, 0x09] []) [255, 0] = some [255, 0] := by decide

/-- L2-A4. -/
theorem test_mov : regsAfter (rootAt 0 [0x02, 0x09, 0x03, 0x00] [(3, 7)]) [9, 3] = some [7, 7] := by decide

/-- L2-A5. -/
theorem test_mov_self : regsAfter (rootAt 0 [0x02, 0x04, 0x04, 0x00] [(4, 9)]) [4] = some [9] := by decide

/-- L1-6. -/
theorem test_add_wraps : regsAfter (rootAt 0 [0x03, 0x03, 0x04, 0x05] [(4, 200), (5, 100)]) [3] = some [44] := by decide

/-- L2-A8. -/
theorem test_add_doubles : regsAfter (rootAt 0 [0x03, 0x01, 0x01, 0x01] [(1, 200)]) [1] = some [144] := by decide

/-- L1-6. -/
theorem test_sub_wraps : regsAfter (rootAt 0 [0x04, 0x03, 0x04, 0x05] [(4, 10), (5, 20)]) [3] = some [246] := by decide

/-- L2-A15. -/
theorem test_sub_into_subtrahend :
    regsAfter (rootAt 0 [0x04, 0x02, 0x01, 0x02] [(1, 50), (2, 20)]) [2] = some [30] := by decide

/-! ### Input and output (L1-9, L2-IO) -/

/-- L2-IO2 to L2-IO6. -/
theorem test_readN :
    ["42", "300", "-1", "  +7\t", "-300", "0x10", "1 2", ""].map
      (fun t => regsAfter (rootWithLines [line t] [0x08, 0x0A, 0x01, 0x00] [(10, 9)]) [10]) =
    [some [42], some [44], some [255], some [7], some [212], some [0], some [0], some [0]] := by decide

/-- L2-IO7, L2-IO8: end of input, and the hold. -/
theorem test_readN_without_line :
    regsAfter (rootAt 0 [0x08, 0x0A, 0x01, 0x00] [(10, 9)]).endInput [10] = some [0] ∧
    pcsAfter (rootAt 0 [0x08, 0x0A, 0x01, 0x00] [(10, 9)]) = some [0] ∧
    regsAfter (rootAt 0 [0x08, 0x0A, 0x01, 0x00] [(10, 9)]) [10] = some [9] := by decide

/-- L2-IO9, L2-IO10: padding, and the discarded rest of the one line. -/
theorem test_readS :
    regsAfter (rootWithLines [line "Hi", line "x"] [0x08, 0x14, 0x02, 0x04] []) [20, 21, 22, 23] =
      some [72, 105, 0, 0] ∧
    regsAfter (rootWithLines [line "Hello", line "x"] [0x08, 0x14, 0x02, 0x02] [(22, 5)]) [20, 21, 22] =
      some [72, 101, 5] ∧
    linesAfter (rootWithLines [line "Hello", line "x"] [0x08, 0x14, 0x02, 0x02] []) = some [line "x"] := by decide

/-- L2-IO13, L2-IO14. -/
theorem test_readS_range_edge :
    regsAfter (rootWithLines [line "abcdef"] [0x08, 0xFA, 0x02, 0x06] []) [250, 255] = some [97, 102] ∧
    statusAfter (rootWithLines [line "abcdef"] [0x08, 0xFA, 0x02, 0x07] []) =
      faultWith (.registerIndexOutOfRange 0 250 7) 1 ∧
    linesAfter (rootWithLines [line "abcdef"] [0x08, 0xFA, 0x02, 0x07] []) = some [line "abcdef"] := by decide

/-- L2-IO17 to L2-IO20, L2-IO23. -/
theorem test_putN :
    ([0x64, 0x78, 0x58, 0x62, 0x41] : List Byte).map (fun b => outAfter (rootAt 0 [0x09, 0x01, b, 0x00] [(1, 156)])) =
    ["156", "9c", "9C", "10011100", "156"].map (fun t => some ((line t).map (BitVec.ofNat 8))) := by decide

/-- A prefix `16#`, a padding, and a separator between the digits (42_io.md R151, R152). -/
theorem test_rendering_table :
    let text (places : List RenderPlace) :=
      putRender { Config.default with putRender := [{ fmt := 0x78, value := 156, places := places }] } 0x78 156
    text [.code 0x31, .code 0x36, .code 0x23] = (line "16#9c").map (BitVec.ofNat 8) ∧
    text [.code 0x20, .digit, .digit, .code 0x68] = (line " 9ch").map (BitVec.ofNat 8) ∧
    text [.digit, .code 0x5F, .digit, .digit] = (line "9_c").map (BitVec.ofNat 8) := by decide

/-- L2-IO21. -/
theorem test_putN_zero : outAfter (rootAt 0 [0x09, 0x01, 0x78, 0x00] []) = some [0x30] := by decide

/-- L1-9. -/
theorem test_putS : outAfter (rootAt 0 [0x09, 0x00, 0x80, 0x03] [(0, 72), (2, 73)]) = some [0x48, 0x20, 0x49] := by decide

/-- L2-D14, and 42_io.md R146. -/
theorem test_putS_range_edge :
    outAfter (rootAt 0 [0x09, 0xFF, 0x80, 0x01] [(255, 0x80)]) = some [0x80] ∧
    outAfter (rootAt 0 [0x09, 0xFF, 0x80, 0x00] []) = some [] ∧
    statusAfter (rootAt 0 [0x09, 0xFF, 0x80, 0x02] []) = faultWith (.registerIndexOutOfRange 0 255 2) 1 := by decide

/-! ### Jumps (L2-B) -/

/-- The example of 43_branch.md R170, and L2-B11. -/
theorem test_jmp : pcsAfter (rootAt 0 [0x10, 0x08, 0x00, 0x00] []) = some [32] ∧
    pcsAfter (rootAt 0 [0x10, 0xFF, 0x00, 0x00] []) = some [1020] := by decide

/-- L1-7. -/
theorem test_jeq_taken : pcsAfter (rootAt 0 [0x11, 0x03, 0x00, 0x00] [(0, 5)]) = some [12] := by decide
theorem test_jeq_not_taken : pcsAfter (rootAt 0 [0x11, 0x03, 0x00, 0x01] [(0, 5)]) = some [4] := by decide

/-- L2-B9. -/
theorem test_jgt_is_unsigned : pcsAfter (rootAt 0 [0x12, 0x02, 0x01, 0x02] [(1, 128), (2, 1)]) = some [8] := by decide

/-- L2-B8. -/
theorem test_jgt_not_on_equal : pcsAfter (rootAt 0 [0x12, 0x02, 0x01, 0x02] [(1, 5), (2, 5)]) = some [4] := by decide

/-! ### Contexts (L2-C) -/

/-- L2-C3: the call step, and nothing written yet. -/
theorem test_call_pushes :
    pcsAfter (caller [0xF2, 0xC3, 0x38, 0x01, 0x01, 0x07, 0x2A, 0x00, 0x21, 0x00, 0x00, 0x00]) = some [0, 8] ∧
    (after (step (caller [0xF2, 0xC3, 0x38, 0x01, 0x21, 0x00, 0x00, 0x00]))).map (fun t => t.frames.map Frame.dest) =
      some [some 5, none] := by decide

/-- L2-C5, L2-C8, L2-C10. -/
theorem test_call_faults :
    statusAfter (caller [0xF2, 0xC3, 0x38, 0x00, 0x21, 0x00, 0x00, 0x00]) = faultWith (.childExecutionError 8 [0x6B]) 1 ∧
    statusAfter unterminated = faultWith (.unterminatedCallName 0 250) 1 ∧
    statusAfter (limited 1 [0xF2, 0xC3, 0x38, 0x01]) = faultWith (.callDepthExceeded 8 1) 1 := by decide

/-- L2-C2. -/
theorem test_exit_root : statusAfter (rootAt 0 [0x21, 0x00, 0x00, 0x00] [(0, 7)]) = some (.halted 7) := by decide

/-- L2-C16. -/
theorem test_exit_subordinate :
    regsAfter (subordinate [0x21, 0x00, 0x00, 0x00] [(0, 4)]) [5] = some [4] ∧
    pcsAfter (subordinate [0x21, 0x00, 0x00, 0x00] [(0, 4)]) = some [12] := by decide

/-- L2-C6. -/
theorem test_subordinate_end_of_stream :
    regsAfter (subordinate [] [(5, 9)]) [5] = some [0] ∧ pcsAfter (subordinate [] []) = some [12] := by decide

/-- L2-C3, L2-C8, L2-C10: what LOADER is asked for. -/
theorem test_load_request :
    loadRequest (caller []) = some [0x6B] ∧ loadRequest unterminated = none ∧ loadRequest (limited 1 []) = none := by decide

/-- 40_cycle.md R107, R108: the block's step with the host's answers as arguments. -/
theorem test_block_step_takes_answers :
    let b := (rootAt 0 [0x08, 0x0A, 0x01, 0x00] [(10, 9)]).toBlock
    let with_ (a : Option InAnswer) :=
      match Block.step Config.default { inAnswer := a, loadAnswer := none } b with
      | .next t => some (t.regs[10], t.frames.map Frame.pc)
      | .fault _ => none
      | .refused _ => none
    with_ (some (.line (line "42"))) = some (42, [4]) ∧ with_ (some .eof) = some (0, [4]) ∧ with_ none = some (9, [0]) := by
  decide

/-- Some registers of a run's block, and its program counters. -/
def runView (r : Host.Outcome Block Fault Refusal) (rs : List Byte) : Option (List Byte × List Nat) :=
  match r with
  | .next b => some (rs.map fun i => b.regs[i.toNat]'i.isLt, b.frames.map Frame.pc)
  | .fault _ => none
  | .refused _ => none

/-- 42_io.md R148: a READ that IN answers at the third step. -/
theorem test_run_with_a_late_answer :
    let answers (k : Nat) : StepInputs := { inAnswer := if k = 2 then some (.line (line "42")) else none, loadAnswer := none }
    let run (n : Nat) := runFile ([0xF2, 0xC3, 0x38, 0x01] ++ [0x08, 0x0A, 0x01, 0x00]) Config.default answers n
    runView (run 2) [10] = some ([0], [0]) ∧ runView (run 3) [10] = some ([42], [4]) := by decide

/-- 20_memory.md R51: two CALLs of the empty name, with an empty child and then one that exits with register 9. -/
theorem test_run_with_two_load_answers :
    let answers (k : Nat) : StepInputs :=
      { inAnswer := none
        loadAnswer := some ([0xF2, 0xC3, 0x38, 0x01] ++ if k < 2 then [] else [0x21, 0x09, 0x00, 0x00]) }
    let b := (rootAt 0 [0x20, 0x05, 0xFF, 0x00, 0x20, 0x06, 0xFF, 0x00] [(5, 1), (9, 7)]).toBlock
    runView (Block.run Config.default answers 4 b) [5, 6] = some ([0, 7], [8]) := by decide

/-- L2-C13, L2-C14. -/
theorem test_call_name_addressing :
    callName { rootAt 0 [] [(3, 100), (100, 0x6B)] with
      config := { Config.default with nameAddressing := .indirect } } 3 = some [0x6B] ∧
    callName (rootAt 0 [] [(3, 100), (100, 0x6B)]) 3 = some [0x64] := by decide

/-! ### The assembler (L1-2, L1-3, L2-AS) -/

/-- L1-2, L2-AS5, L2-AS6. -/
theorem test_value_parser :
    ["'A'", "0b101", "0x1F", "0o17", "42", "300", "-1", "007", "'''", "0X1F", "0b102", "0x", "1_0", "0,"].map
      (fun t => Asm.parseValue t.toList) =
    [some 65, some 5, some 31, some 15, some 42, some 300, some (-1), some 7, some 39, none, none, none, none, none] := by
  decide

/-- L1-3, L2-AS1, L2-AS3, L2-AS9. -/
theorem test_assemble_plain_lines :
    wordsOf ["SET 0 300", "ADD 256 257 258", "EXIT 7", "set 0 -1", "EXIT 256"] =
      .ok [[0x01, 0x00, 0x2C, 0x00], [0x03, 0x00, 0x01, 0x02], [0x21, 0x07, 0x00, 0x00], [0x01, 0x00, 0xFF, 0x00],
        [0x21, 0x00, 0x00, 0x00]] := by decide

/-- L2-AS10, L2-AS13. -/
theorem test_assemble_modes :
    wordsOf ["READ 3 n", "READ 3 s 5", "PUT 3 N x", "PUT 3 S 4"] =
      .ok [[0x08, 0x03, 0x01, 0x00], [0x08, 0x03, 0x02, 0x05], [0x09, 0x03, 0x78, 0x00], [0x09, 0x03, 0x80, 0x04]] := by
  decide

/-- L2-AS23, L2-AS18. -/
theorem test_assemble_labels :
    wordsOf ["SET 0 5 // five", "", "   :top:   ", "JMP top"] = .ok [[0x01, 0x00, 0x05, 0x00], [0x10, 0x01, 0x00, 0x00]] ∧
    wordsOf ["JMP end", "SET 0 1", ":end:"] = .ok [[0x10, 0x02, 0x00, 0x00], [0x01, 0x00, 0x01, 0x00]] := by decide

/-- L2-AS7, L2-AS11, L2-AS14 to L2-AS17, L2-AS28. -/
theorem test_assemble_line_errors :
    [["SET 0, 5"], ["READ 3 N 5"], ["PUT 3 n x"], ["PUT 3 N xx"], ["ADD 1 2"], ["FOO 1"], ["::"]].map wordsOf =
    [.error { kind := .malformedOperand, line := 1 }, .error { kind := .malformedInstruction, line := 1 },
      .error { kind := .malformedInstruction, line := 1 }, .error { kind := .malformedInstruction, line := 1 },
      .error { kind := .malformedInstruction, line := 1 }, .error { kind := .unknownOpcode, line := 1 },
      .error { kind := .unknownOpcode, line := 1 }] := by decide

/-- L2-AS19 to L2-AS22, L2-AS24. -/
theorem test_assemble_label_errors :
    [[":a:", "SET 0 1", ":a:"], ["JMP 3"], ["JMP"], ["FOO", "SET 0 1", "JMP nowhere"], [":Loop:", "JMP loop"]].map wordsOf =
    [.error { kind := .duplicateLabel, line := 3 }, .error { kind := .undefinedLabel, line := 1 },
      .error { kind := .malformedInstruction, line := 1 }, .error { kind := .undefinedLabel, line := 3 },
      .error { kind := .undefinedLabel, line := 2 }] := by decide

/-- L1-1, P1. -/
theorem test_assemble_file :
    Asm.assemble (source ["SET 0 5", "JEQ end 0 0", "SET 1 9", ":end:"]) =
      .ok [0xF2, 0xC3, 0x38, 0x01, 0x01, 0x00, 0x05, 0x00, 0x11, 0x03, 0x00, 0x00, 0x01, 0x01, 0x09, 0x00] ∧
    Asm.assemble (source []) = .ok [0xF2, 0xC3, 0x38, 0x01] := by decide

/-- L1-4: resolved twice with one table, the index and the word are the same, also where a label `0` is bound elsewhere. -/
theorem test_resolving_twice :
    let table : List Asm.Binding := [{ name := ['t', 'o', 'p'], index := 0 }, { name := ['0'], index := 7 }]
    let l : Asm.InstrLine := { line := 1, mnemonic := ['J', 'M', 'P'], operands := [['t', 'o', 'p']], label := none }
    ((Asm.resolveLine table l).bind (Asm.resolveLine table)).bind Asm.encodeLine = .ok (.jmp 0) ∧
    (Asm.resolveLine table l).bind Asm.encodeLine = .ok (.jmp 0) ∧ encode (.jmp 0) = [0x10, 0x00, 0x00, 0x00] := by decide

/-- L2-AS26, L2-AS27. -/
theorem test_listing :
    Asm.listing (source ["SET 0 5"]) = .ok [("SET 0 5: 01000500\n").toList] ∧
    Asm.listing (source ["jmp end", ":end:"]) = .ok [("JMP 1: 10010000\n").toList] := by decide

/-! ### Witnesses: for each statement with hypotheses, values that meet all of them -/

theorem witness_DecodeOfEncodeIsIdentity :
    (Instr.putN 12 0x7F).WellFormed = true ∧ (Instr.putN 12 0x81).WellFormed = true := by decide

theorem witness_DecodedWordReencodes :
    decode [0x09, 0x01, 0x81, 0x07] = .instr (.putN 1 0x81) ∧ decode [0x21, 0x03, 0x55, 0xAA] = .instr (.exit 3) := by decide

theorem witness_UnassignedOpcodesAreUnknown :
    decode [0x22, 1, 2, 3] = .unknownOpcode 0x22 ∧
    (0x22 : Byte) ∉ ([0x01, 0x02, 0x03, 0x04, 0x08, 0x09, 0x10, 0x11, 0x12, 0x20, 0x21] : List Byte) := by decide

theorem witness_UnusedSlotsAreIgnored :
    (0x20 : Byte) ∈ ([0x01, 0x02, 0x20] : List Byte) ∧ (0x21 : Byte) ∈ ([0x10, 0x21] : List Byte) ∧
    (0x01 : Byte) ≠ 0x02 ∧ (0x7F : Byte) ≠ 0x80 := by decide

/-- The plain root of the statements that ask for an active frame only. -/
def plain : State := rootAt 0 [0x01, 0xFF, 0xFF, 0x00] [(0, 255), (1, 1)]

def plainFrame : Frame := { code := [0x01, 0xFF, 0xFF, 0x00], pc := 0, dest := none }

theorem witness_SetWritesImmediate : plain.frames = plainFrame :: [] := by decide
theorem witness_MovCopiesRegister : plain.frames = plainFrame :: [] := by decide

/-- 255 + 1 wraps. -/
theorem witness_AddWritesSumModulo256 :
    plain.frames = plainFrame :: [] ∧ plain.readReg 0 = 255 ∧ plain.readReg 1 = 1 := by decide

/-- 0 - 1 wraps. -/
theorem witness_SubWritesDifferenceModulo256 :
    plain.frames = plainFrame :: [] ∧ plain.readReg 2 = 0 ∧ plain.readReg 1 = 1 := by decide

/-- Each clause: a number out of a byte's range, a line that is no number, end of input. -/
theorem witness_ReadNStoresDecimal :
    (plain.supplyLine (line "-300")).frames = plainFrame :: [] ∧
    (plain.supplyLine (line "-300")).input.lines = line "-300" :: [] ∧ parseDec (line "-300") = some (-300) ∧
    (plain.supplyLine (line "4.0")).input.lines = line "4.0" :: [] ∧ parseDec (line "4.0") = none ∧
    plain.endInput.frames = plainFrame :: [] ∧ plain.endInput.input.lines = [] ∧ plain.endInput.input.ended = true := by
  decide

/-- Both sides of the equivalence at ` -12 `. -/
theorem witness_ParseDecReadsSignedDecimal :
    parseDec (line " -12 ") = some (-12) ∧ line " -12 " = [0x20] ++ [0x2D] ++ [0x31, 0x32] ++ [0x20] := by decide

/-- The range ends at register 255; each clause: a line, its character, its padding, end of input. -/
theorem witness_ReadSStoresCharacters :
    (plain.supplyLine (line "Hi")).frames = plainFrame :: [] ∧ (250 : Byte).toNat + (6 : Byte).toNat ≤ 256 ∧
    (plain.supplyLine (line "Hi")).input.lines = line "Hi" :: [] ∧
    inRange 250 6 251 ∧ (line "Hi")[(251 : Byte).toNat - (250 : Byte).toNat]? = some 0x69 ∧
    inRange 250 6 255 ∧ (line "Hi").length ≤ (255 : Byte).toNat - (250 : Byte).toNat ∧
    plain.endInput.input.lines = [] ∧ plain.endInput.input.ended = true := by
  unfold inRange; decide

theorem witness_RangePast255Faults :
    plain.frames = plainFrame :: [] ∧ 256 < (250 : Byte).toNat + (7 : Byte).toNat := by decide

theorem witness_ReadHoldsForEver :
    let s := rootAt 0 [0x08, 0x0A, 0x01, 0x00] []
    let s' := rootAt 0 [0x08, 0xFF, 0x02, 0x01] []
    (s.status = .running ∧ s.frames = { code := [0x08, 0x0A, 0x01, 0x00], pc := 0, dest := none } :: [] ∧
      s.input.lines = [] ∧ s.input.ended = false ∧
      decode (fetch { code := [0x08, 0x0A, 0x01, 0x00], pc := 0, dest := none }) = .instr (.readN 10)) ∧
    (s'.status = .running ∧ s'.frames = { code := [0x08, 0xFF, 0x02, 0x01], pc := 0, dest := none } :: [] ∧
      s'.input.lines = [] ∧ s'.input.ended = false ∧
      decode (fetch { code := [0x08, 0xFF, 0x02, 0x01], pc := 0, dest := none }) = .instr (.readS 255 1) ∧
      (255 : Byte).toNat + (1 : Byte).toNat ≤ 256) := by decide

/-- Both forms at an active READ, and an answer, a line or `eof`, after two steps without one. -/
theorem witness_SuppliedLineLiftsHold :
    let s := rootAt 0 [0x08, 0xFF, 0x01, 0x00] []
    let s' := rootAt 0 [0x08, 0xFF, 0x02, 0x01] []
    let answers (ans : InAnswer) (k : Nat) : StepInputs := { inAnswer := if k < 2 then none else some ans, loadAnswer := none }
    (s.frames = { code := [0x08, 0xFF, 0x01, 0x00], pc := 0, dest := none } :: [] ∧ s.input.lines = [] ∧
      s.status = .running ∧ decode (fetch { code := [0x08, 0xFF, 0x01, 0x00], pc := 0, dest := none }) = .instr (.readN 255)) ∧
    (s'.frames = { code := [0x08, 0xFF, 0x02, 0x01], pc := 0, dest := none } :: [] ∧ s'.input.lines = [] ∧
      s'.status = .running ∧
      decode (fetch { code := [0x08, 0xFF, 0x02, 0x01], pc := 0, dest := none }) = .instr (.readS 255 1)) ∧
    (255 : Byte).toNat + (1 : Byte).toNat ≤ 256 ∧
    (∀ k, k < 2 → (answers .eof k).inAnswer = none) ∧ (answers .eof 2).inAnswer = some .eof ∧
    (answers (.line []) 2).inAnswer = some (.line []) := by decide

theorem witness_PutNEmitsRendering : plain.frames = plainFrame :: [] ∧ (0x81 : Byte) ≠ 0x80 := by decide

theorem witness_DefaultRenderingIsMinimalDigits : Config.default.putRender = [] := by decide

/-- Each format code's radix: named codes and another. -/
theorem witness_RenderingKeepsRadixAndCase :
    ([0x78, 0x58, 0x62, 0x64, 0x41] : List Byte).map
      (fun b => if b = 0x78 ∨ b = 0x58 then 16 else if b = 0x62 then 2 else 10) = [16, 16, 2, 10, 10] := by decide

/-- `16#` before the digits of every format code. -/
theorem witness_EveryRenderingIsConfigurable (b v : Byte) :
    (putRender Config.default b v).Sublist ([0x31, 0x36, 0x23] ++ putRender Config.default b v) :=
  List.sublist_append_right _ _

/-- The range ends at register 255, and holds a 0 and a non-zero register. -/
theorem witness_PutSEmitsCharacters :
    plain.frames = plainFrame :: [] ∧ (0 : Byte).toNat + (3 : Byte).toNat ≤ 256 ∧
    (255 : Byte).toNat + (1 : Byte).toNat ≤ 256 ∧
    inRange 0 3 0 ∧ plain.readReg 0 ≠ 0 ∧ inRange 0 3 2 ∧ plain.readReg 2 = 0 ∧ inRange 255 1 255 := by
  unfold inRange; decide

theorem witness_JmpSetsPc : plain.frames = plainFrame :: [] := by decide

/-- Taken and not taken. -/
theorem witness_JeqJumpsOnEqual :
    plain.frames = plainFrame :: [] ∧ plain.readReg 2 = plain.readReg 3 ∧ plain.readReg 0 ≠ plain.readReg 1 := by decide

/-- Taken, and not taken on equal values. -/
theorem witness_JgtJumpsOnUnsignedGreater :
    plain.frames = plainFrame :: [] ∧ (plain.readReg 1).toNat < (plain.readReg 0).toNat ∧
    ¬ (plain.readReg 2).toNat < (plain.readReg 3).toNat := by decide

/-- L2-B13, and a taken JEQ and a taken JGT at their own index. -/
theorem witness_SelfJumpLoopsForEver :
    (let f : Frame := { code := [0, 0, 0, 0, 0, 0, 0, 0, 0x10, 0x02, 0x00, 0x00], pc := 8, dest := none }
     let s : State := { State.reset with frames := [f] }
     s.status = .running ∧ s.frames = f :: [] ∧ f.pc = (2 : Byte).toNat * 4 ∧ decode (fetch f) = .instr (.jmp 2)) ∧
    (let f : Frame := { code := [0x11, 0x00, 0x05, 0x05], pc := 0, dest := none }
     let s : State := { State.reset with frames := [f] }
     s.status = .running ∧ s.frames = f :: [] ∧ f.pc = (0 : Byte).toNat * 4 ∧
     decode (fetch f) = .instr (.jeq 0 5 5) ∧ s.readReg 5 = s.readReg 5) ∧
    (let f : Frame := { code := [0x12, 0x00, 0x01, 0x02], pc := 0, dest := none }
     let s := rootAt 0 [0x12, 0x00, 0x01, 0x02] [(1, 0x80), (2, 0x7F)]
     s.status = .running ∧ s.frames = f :: [] ∧ f.pc = (0 : Byte).toNat * 4 ∧
     decode (fetch f) = .instr (.jgt 0 1 2) ∧ (s.readReg 2).toNat < (s.readReg 1).toNat) := by decide

/-- Direct and indirect; a name, the name that ends at register 255, and no name. -/
theorem witness_CallNameIsZeroTerminated :
    (let s := rootAt 0 [] [(3, 100), (254, 0x6B)]
     s.config.nameAddressing = .direct ∧ callName s 254 = some [0x6B] ∧ s.readReg 255 = 0) ∧
    (let s := { rootAt 0 [] [(3, 100), (100, 0x6B)] with config := { Config.default with nameAddressing := .indirect } }
     s.config.nameAddressing = .indirect ∧ (100 : Byte) = s.readReg 3 ∧ callName s 3 = some [0x6B]) ∧
    (unterminated.config.nameAddressing = .direct ∧ callName unterminated 250 = none) := by decide

/-- One below the depth limit. -/
theorem witness_CallPushesChild :
    let s := limited 2 [0xF2, 0xC3, 0x38, 0x01, 0xFF]
    s.frames = (caller []).frames ∧ callName s 100 = some [0x6B] ∧ s.config.maxCallDepth = some 2 ∧
    s.frames.length < 2 ∧ load s [0x6B] = some ([0xF2, 0xC3, 0x38, 0x01] ++ [0xFF]) := by decide

/-- Each clause: no name; at the depth limit; below it with a bad header and with no file. -/
theorem witness_CallFaultsInOrder :
    callName unterminated 250 = none ∧
    (callName (limited 1 []) 100 = some [0x6B] ∧ (limited 1 []).config.maxCallDepth = some 1 ∧
      1 ≤ (limited 1 []).frames.length) ∧
    (callName (limited 2 [0xF2]) 100 = some [0x6B] ∧ (limited 2 [0xF2]).config.maxCallDepth = some 2 ∧
      (limited 2 [0xF2]).frames.length < 2 ∧ load (limited 2 [0xF2]) [0x6B] = some [0xF2] ∧
      ([0xF2] : List Byte).take 4 ≠ [0xF2, 0xC3, 0x38, 0x01]) ∧
    (callName plain 2 = some [] ∧ plain.config.maxCallDepth = none ∧ load plain [] = none) := by decide

/-- The root, and a subordinate. -/
theorem witness_ExitEndsContext :
    plain.frames = [plainFrame] ∧
    (subordinate [0x21, 0, 0, 0] []).frames =
      { code := [0x21, 0, 0, 0], pc := 0, dest := some 5 } ::
      { code := [0x01, 0x64, 0x6B, 0x00, 0x01, 0x65, 0x00, 0x00, 0x20, 0x05, 0x64, 0x00], pc := 8, dest := none } :: [] ∧
    ({ code := [0x21, 0, 0, 0], pc := 0, dest := some 5 } : Frame).dest = some 5 := by decide

/-- A word after another word and before a last partial one. -/
theorem witness_StepRunsDecodedInstruction :
    let f : Frame := { code := [1, 2, 3, 4] ++ 0x03 :: 0x01 :: 0x01 :: 0x01 :: [9], pc := 4, dest := none }
    let s : State := { State.reset with frames := [f] }
    s.status = .running ∧ s.frames = f :: [] ∧ ([1, 2, 3, 4] : List Byte).length = f.pc ∧
    decode [0x03, 0x01, 0x01, 0x01] = .instr (.add 1 1 1) := by decide

/-- At the end exactly: the root, and a subordinate. -/
theorem witness_StepPastStreamEndsContext :
    (State.reset.status = .running ∧ State.reset.frames = { code := [], pc := 0, dest := none } :: [] ∧
      ([] : List Byte).length ≤ 0) ∧
    ((subordinate [] []).status = .running ∧
      (subordinate [] []).frames = { code := [], pc := 0, dest := some 5 } :: (caller []).frames) := by decide

/-- One byte, and three bytes left. -/
theorem witness_StepOnPartialWordFaults :
    (rootAt 0 [1, 2, 3] []).status = .running ∧
    (rootAt 0 [1, 2, 3] []).frames = { code := [1, 2, 3], pc := 0, dest := none } :: [] ∧
    0 < ([1, 2, 3] : List Byte).length ∧ ([1, 2, 3] : List Byte).length < 0 + 4 ∧
    4 < ([1, 2, 3, 4, 5] : List Byte).length ∧ ([1, 2, 3, 4, 5] : List Byte).length < 4 + 4 := by decide

/-- Each clause. -/
theorem witness_StepOnIllegalWordFaults :
    (rootAt 0 ([] ++ 0xFF :: 0 :: 0 :: 0 :: []) []).status = .running ∧
    (rootAt 0 ([] ++ 0xFF :: 0 :: 0 :: 0 :: []) []).frames = { code := [0xFF, 0, 0, 0], pc := 0, dest := none } :: [] ∧
    (0xFF : Byte) ∉ ([0x01, 0x02, 0x03, 0x04, 0x08, 0x09, 0x10, 0x11, 0x12, 0x20, 0x21] : List Byte) ∧
    (rootAt 0 ([] ++ 0x08 :: 0 :: 3 :: 0 :: []) []).frames = { code := [0x08, 0, 3, 0], pc := 0, dest := none } :: [] ∧
    (3 : Byte) ≠ 0x01 ∧ (3 : Byte) ≠ 0x02 := by decide

theorem witness_EndedMachineTakesNoStep :
    ({ State.reset with status := .halted 156 } : State).status = .halted 156 ∧
    ({ State.reset with status := .faulted { cause := .truncatedFetch 0, depth := 1 } } : State).status =
      .faulted { cause := .truncatedFetch 0, depth := 1 } := by decide

theorem witness_FaultsArePrecise :
    ∃ t, step (rootAt 0 [1, 2, 3] []) = .next t ∧ t.status = .faulted { cause := .truncatedFetch 0, depth := 1 } :=
  ⟨_, rfl, by decide⟩

/-- A jump whose target is not the next word. -/
theorem witness_NoStepBranchesAndWrites :
    ∃ t g, step (rootAt 0 [0x10, 0x08, 0, 0] []) = .next t ∧
      (rootAt 0 [0x10, 0x08, 0, 0] []).frames = { code := [0x10, 0x08, 0, 0], pc := 0, dest := none } :: [] ∧
      t.frames = g :: [] ∧ g.pc ≠ 0 + 4 :=
  ⟨_, { code := [0x10, 0x08, 0, 0], pc := 32, dest := none }, rfl, by decide, by decide, by decide⟩

theorem witness_StackChangesOnlyAtItsTop :
    ∃ t, step (caller [0xF2, 0xC3, 0x38, 0x01]) = .next t ∧ t.frames.length = 2 := ⟨_, rfl, by decide⟩

theorem witness_StreamsNeverChange :
    ∃ t, step (caller [0xF2, 0xC3, 0x38, 0x01]) = .next t ∧ 0 < (caller []).frames.length ∧ 0 < t.frames.length :=
  ⟨_, rfl, by decide, by decide⟩

theorem witness_OutputGrowsAndInputShrinks :
    ∃ t, step (rootWithLines [line "7"] [0x08, 0x0A, 0x01, 0x00] []) = .next t ∧ t.input.lines = [] :=
  ⟨_, rfl, by decide⟩

theorem witness_StepKeepsParameters :
    ∃ t, step (limited 2 [0xF2, 0xC3, 0x38, 0x01]) = .next t ∧ t.config.maxCallDepth = some 2 := ⟨_, rfl, by decide⟩

theorem witness_WritesOnlyItsRegisters :
    ∃ t, exec (.add 2 0 1) plain = .next t ∧ ¬ writesReg (.add 2 0 1) plain 3 := by
  exact ⟨_, rfl, fun h => (by decide : ¬ (3 : Byte) = 2) h⟩

/-- Two states that differ in a register ADD does not read; and an instruction that stops, on a machine without a frame. -/
theorem witness_DependsOnlyOnItsRegisters :
    ((plain.writeReg 9 5).frames = plain.frames ∧ (plain.writeReg 9 5).out = plain.out ∧
      (plain.writeReg 9 5).input = plain.input ∧ (plain.writeReg 9 5).status = plain.status ∧
      (plain.writeReg 9 5).loader = plain.loader ∧ (plain.writeReg 9 5).config = plain.config ∧
      (∀ r, readsReg (.add 2 0 1) plain r → (plain.writeReg 9 5).readReg r = plain.readReg r) ∧
      (plain.writeReg 9 5).readReg 9 ≠ plain.readReg 9 ∧ ∃ t, exec (.add 2 0 1) plain = .next t) ∧
    exec (.add 2 0 1) { plain with frames := [] } = .fault .noActiveContext := by
  refine ⟨⟨rfl, rfl, rfl, rfl, rfl, rfl, ?_, by decide, _, rfl⟩, rfl⟩
  intro r h
  rcases (h : r = 0 ∨ r = 1) with rfl | rfl <;> decide

/-- The callers differ, and the subordinate's step goes on. -/
theorem witness_CalleeIsIsolatedFromCallers :
    let f : Frame := { code := [0x01, 0x07, 0x2A, 0x00], pc := 0, dest := some 5 }
    let c : Frame := { code := [0x20, 0x05, 0x64, 0x00], pc := 0, dest := none }
    let c' : Frame := { code := [], pc := 8, dest := none }
    let s : State := { State.reset with frames := [f, c] }
    s.frames = f :: c :: [] ∧ c' ≠ c ∧ ([] : List Frame).length = ([] : List Frame).length ∧ ∃ t, step s = .next t :=
  ⟨rfl, by decide, rfl, _, rfl⟩

/-- A CALL answered by LOADER, a READ answered by IN, and a next state; and a run in which the host supplies a line after
a held step, whose root then ends. -/
theorem witness_StepIsBlockStep :
    ((caller [0xF2, 0xC3, 0x38, 0x01]).inputs.loadAnswer = some [0xF2, 0xC3, 0x38, 0x01] ∧
      (rootWithLines [line "7"] [0x08, 0x0A, 0x01, 0x00] []).inputs.inAnswer = some (.line (line "7")) ∧
      ∃ t, step (rootWithLines [line "7"] [0x08, 0x0A, 0x01, 0x00] []) = .next t) ∧
    (let read := rootAt 0 [0x08, 0x0A, 0x01, 0x00] []
     let answered := read.supplyLine (line "7")
     let states (k : Nat) : State :=
       match k with
       | 0 => read
       | 1 => answered
       | 2 => stepped answered
       | _ + 3 => stepped (stepped answered)
     (∀ k, (states k).config = Config.default) ∧
     (∀ k, (states k).status = .running → ∃ t, step (states k) = .next t ∧ (states (k + 1)).toBlock = t.toBlock) ∧
     (∀ k, (states k).status ≠ .running → (states (k + 1)).toBlock = (states k).toBlock)) := by
  refine ⟨⟨by decide, by decide, _, rfl⟩, ?_, ?_, ?_⟩
  · rintro (_ | _ | _ | k) <;> rfl
  · rintro (_ | _ | _ | k) h
    · exact ⟨_, rfl, rfl⟩
    · exact ⟨_, rfl, rfl⟩
    · exact ⟨_, rfl, rfl⟩
    · cases h
  · rintro (_ | _ | _ | k) h
    · exact absurd rfl h
    · exact absurd rfl h
    · exact absurd rfl h
    · rfl

/-- Both clauses, the second with a file that differs in its last header byte and with a short one. -/
theorem witness_LaunchChecksHeaderAndResets :
    ([0xF2, 0xC3, 0x38, 0x01, 0x05] : List Byte) = [0xF2, 0xC3, 0x38, 0x01] ++ [0x05] ∧
    (∀ code : List Byte, ([0xF2, 0xC3, 0x38, 0x02] : List Byte) ≠ [0xF2, 0xC3, 0x38, 0x01] ++ code) ∧
    (∀ code : List Byte, ([0xF2, 0xC3, 0x38] : List Byte) ≠ [0xF2, 0xC3, 0x38, 0x01] ++ code) := by
  refine ⟨rfl, ?_, ?_⟩
  · intro code h; simp at h
  · intro code h; simp at h

/-- A subordinate under a depth limit it just meets. -/
theorem witness_StepKeepsInvariant :
    let s := { subordinate [0x21, 0, 0, 0] [] with config := { Config.default with maxCallDepth := some 2 } }
    Invariant s = true ∧ ∃ t, step s = .next t := ⟨by decide, _, rfl⟩

theorem witness_RunningMachineAlwaysSteps :
    Invariant (subordinate [] []) = true ∧ (subordinate [] []).status = .running := by decide

/-- Each form: the greatest digit of each base, in both cases of a hexadecimal letter; no digit, and one that is none; and
the decimal form with its signs, beside tokens that are neither of the other forms and no number. -/
theorem witness_ValueParserForms :
    ((('b', 2) : Char × Nat) ∈ [('b', 2), ('x', 16), ('o', 8)] ∧ Asm.parseValue "0b101".toList = some 5 ∧
      Asm.parseValue "0b".toList = none ∧ Asm.parseValue "0b102".toList = none) ∧
    ((('x', 16) : Char × Nat) ∈ [('b', 2), ('x', 16), ('o', 8)] ∧ Asm.parseValue "0x1F".toList = some 31 ∧
      Asm.parseValue "0x1f".toList = some 31 ∧ Asm.parseValue "0xg".toList = none) ∧
    ((('o', 8) : Char × Nat) ∈ [('b', 2), ('x', 16), ('o', 8)] ∧ Asm.parseValue "0o17".toList = some 15 ∧
      Asm.parseValue "0o8".toList = none) ∧
    (∀ c, ("-12").toList ≠ ['\'', c, '\'']) ∧ (∀ p cs, p ∈ ['b', 'x', 'o'] → ("-12").toList ≠ '0' :: p :: cs) ∧
    ["-12", "+12", "12", "-", "", "1_0", "0X1F"].map (fun t => Asm.parseValue t.toList) =
      [some (-12), some 12, some 12, none, none, none, none] := by
  refine ⟨by decide, by decide, by decide, ?_, ?_, by decide⟩
  · intro c h
    cases h
  · intro p cs _ h
    cases h

/-- The source of P1. -/
def p1 : List Asm.Text := source ["SET 0 5", "JEQ end 0 0", "SET 1 9", ":end:"]

def p1Code : List Byte := [0x01, 0x00, 0x05, 0x00, 0x11, 0x03, 0x00, 0x00, 0x01, 0x01, 0x09, 0x00]

theorem witness_AssembledFileIsWellFormed : Asm.assemble p1 = .ok ([0xF2, 0xC3, 0x38, 0x01] ++ p1Code) := by decide

/-- At the last word. -/
theorem witness_AssembledWordsAlwaysDecode :
    let f : Frame := { code := p1Code, pc := 8, dest := none }
    Asm.assemble p1 = .ok ([0xF2, 0xC3, 0x38, 0x01] ++ p1Code) ∧
    streamOf ([0xF2, 0xC3, 0x38, 0x01] ++ p1Code) = some p1Code ∧ f.code = p1Code ∧ f.pc % 4 = 0 ∧
    f.pc < p1Code.length := by decide

/-- L2-AS20. -/
theorem witness_UndefinedLabelNeverAssembles :
    Asm.readLines (source ["JMP 3"]) = [(1, .instr ['J', 'M', 'P'] [['3']])] ∧
    Asm.instrLines (Asm.readLines (source ["JMP 3"])) = [{ line := 1, mnemonic := ['J', 'M', 'P'], operands := [['3']], label := none }] ∧
    Asm.isJumpToken ['J', 'M', 'P'] = true ∧
    (∀ n, (n, Asm.Line.label ['3']) ∉ Asm.readLines (source ["JMP 3"])) := by
  refine ⟨by decide, by decide, by decide, ?_⟩
  intro n h
  rw [show Asm.readLines (source ["JMP 3"]) = [(1, .instr ['J', 'M', 'P'] [['3']])] from by decide] at h
  simp at h

/-- L2-AS19. -/
theorem witness_DuplicateLabelNeverAssembles :
    (1, Asm.Line.label ['a']) ∈ Asm.readLines (source [":a:", "SET 0 1", ":a:"]) ∧
    (3, Asm.Line.label ['a']) ∈ Asm.readLines (source [":a:", "SET 0 1", ":a:"]) ∧ (1 : Nat) ≠ 3 := by decide

/-- L2-AS18: a label after the last instruction. -/
theorem witness_JumpEncodesLabelIndex :
    let src := source ["JMP end", "SET 0 1", ":end:"]
    let l : Asm.InstrLine := { line := 1, mnemonic := ['J', 'M', 'P'], operands := [['e', 'n', 'd']], label := none }
    Asm.assembleInstrs src = .ok [.jmp 2, .set 0 1] ∧
    Asm.readLines src =
      [(1, .instr ['J', 'M', 'P'] [['e', 'n', 'd']]), (2, .instr ['S', 'E', 'T'] [['0'], ['1']])] ++
        (3, Asm.Line.label ['e', 'n', 'd']) :: [] ∧
    (Asm.instrLines (Asm.readLines src))[0]? = some l ∧ Asm.isJumpToken l.mnemonic = true ∧
    l.operands = ['e', 'n', 'd'] :: [] := by decide

theorem witness_ModeTokenCaseAsymmetry :
    Asm.shapeOf .put [['3'], ['N'], ['x']] ≠ none ∧ Asm.shapeOf .put [['3'], ['S'], ['4']] ≠ none := by decide

/-- L1-4. -/
theorem witness_ResolutionIsIdempotent :
    let top : Asm.Text := ['t', 'o', 'p']
    let l : Asm.InstrLine := { line := 2, mnemonic := ['J', 'M', 'P'], operands := [top], label := none }
    Asm.resolveLines [{ name := top, index := 0 }] [l] = .ok [{ l with operands := [['0']], label := some top }] := by
  decide

/-- L2-AS17. -/
theorem witness_FailedAssemblyExitsNonZero :
    Asm.assemble (source ["FOO 1"]) = .error { kind := .unknownOpcode, line := 1 } := by decide

end Sys2Proof.Tests
end

section
/-! PROOF. The assembler's passes inverted, and the words an assembled file is made of (30_encoding.md Part B, R93, R94). -/

namespace Sys2Proof.Machine.Asm

/-! ### Outcomes -/

theorem Outcome.bind_eq_ok_iff {α β : Type} {o : Outcome α} {k : α → Outcome β} {b : β} :
    o.bind k = .ok b ↔ ∃ a, o = .ok a ∧ k a = .ok b := by
  cases o <;> simp [Outcome.bind]

/-- A list of outcomes has all its values exactly when none of them is an error, and these are the values in order. -/
theorem Outcome.all_eq_ok_iff {α : Type} {os : List (Outcome α)} {as : List α} :
    Outcome.all os = .ok as ↔ os = as.map .ok := by
  induction os generalizing as with
  | nil => cases as <;> simp [Outcome.all]
  | cons o os ih => cases as <;> simp [Outcome.all, Outcome.bind_eq_ok_iff, ih]

/-! ### Pass 2 -/

theorem resolve_eq_ok_iff {src : List Text} {ls : List InstrLine} :
    resolve src = .ok ls ↔
      ∃ table, bindLabels [] 0 (readLines src) = .ok table ∧ resolveLines table (instrLines (readLines src)) = .ok ls :=
  Outcome.bind_eq_ok_iff

theorem resolveLines_eq_ok_iff {table : List Binding} {ls ls' : List InstrLine} :
    resolveLines table ls = .ok ls' ↔ ls.map (resolveLine table) = ls'.map .ok :=
  Outcome.all_eq_ok_iff

/-- Pass 2 keeps, line by line, whatever it keeps on one line. -/
theorem resolveLines_map_eq {γ : Type} {g : InstrLine → γ} {table : List Binding}
    (hg : ∀ l l', resolveLine table l = .ok l' → g l' = g l) {ls ls' : List InstrLine}
    (h : resolveLines table ls = .ok ls') : ls'.map g = ls.map g := by
  rw [resolveLines_eq_ok_iff] at h
  induction ls generalizing ls' with
  | nil => cases ls' with
    | nil => rfl
    | cons l' ls' => cases h
  | cons l ls ih => cases ls' with
    | nil => cases h
    | cons l' ls' =>
      obtain ⟨hl, hls⟩ := List.cons_eq_cons.mp h
      exact List.cons_eq_cons.mpr ⟨hg l l' hl, ih hls⟩

theorem resolveLine_line {table : List Binding} {l l' : InstrLine} (h : resolveLine table l = .ok l') :
    l'.line = l.line := by
  obtain ⟨-, rfl⟩ | ⟨-, first, ops, k, -, -, rfl⟩ := resolveLine_ok h <;> rfl

theorem resolveLine_mnemonic {table : List Binding} {l l' : InstrLine} (h : resolveLine table l = .ok l') :
    l'.mnemonic = l.mnemonic := by
  obtain ⟨-, rfl⟩ | ⟨-, first, ops, k, -, -, rfl⟩ := resolveLine_ok h <;> rfl

/-- Only the first operand is ever replaced. -/
theorem resolveLine_operands_tail {table : List Binding} {l l' : InstrLine} (h : resolveLine table l = .ok l') :
    l'.operands.tail = l.operands.tail := by
  obtain ⟨-, rfl⟩ | ⟨-, first, ops, k, ho, -, rfl⟩ := resolveLine_ok h
  · rfl
  · rw [ho, List.tail_cons, List.tail_cons]

/-! ### The instruction encoder -/

/-- PUT-N's format byte never selects PUT-S: its top bit is cleared (R92). -/
theorem formatByte_ne_modePutS (fmt : Char) : formatByte fmt ≠ modePutS := by
  intro h
  have hval : (formatByte fmt).toNat = 0x80 := congrArg BitVec.toNat h
  rw [formatByte, BitVec.toNat_ofNat] at hval
  omega

/-- The forms go by their number of operand bytes; PUT-N's is the one with a format code. -/
theorem instrOf_wellFormed {shape : Shape} {i : Instr} (h : instrOf shape = some i) : i.WellFormed = true := by
  cases shape <;> simp only [instrOf, Option.bind_eq_some_iff, Option.map_eq_some_iff] at h
  case putN r fmt =>
    obtain ⟨a, -, rfl⟩ := h
    exact bne_iff_ne.mpr (formatByte_ne_modePutS fmt)
  case readN | jmp | exit =>
    obtain ⟨a, -, rfl⟩ := h
    rfl
  case set | mov | readS | putS | call =>
    obtain ⟨a, -, b, -, rfl⟩ := h
    rfl
  case add | sub | jeq | jgt =>
    obtain ⟨a, -, b, -, c, -, rfl⟩ := h
    rfl

/-- An encoded line, inverted: its token spells a mnemonic, its operands have a form of it, and every value parses. -/
theorem encodeLine_ok {l : InstrLine} {i : Instr} (h : encodeLine l = .ok i) :
    ∃ m shape, parseMnemonic l.mnemonic = some m ∧ shapeOf m l.operands = some shape ∧ instrOf shape = some i := by
  unfold encodeLine at h
  split at h
  · cases h
  · rename_i m hm
    split at h
    · cases h
    · rename_i shape hs
      split at h
      · cases h
      · rename_i i' hi
        cases h
        exact ⟨m, shape, hm, hs, hi⟩

theorem encodeLine_wellFormed {l : InstrLine} {i : Instr} (h : encodeLine l = .ok i) : i.WellFormed = true := by
  obtain ⟨m, shape, -, -, hi⟩ := encodeLine_ok h
  exact instrOf_wellFormed hi

/-! ### The file -/

theorem encode_length (i : Instr) : (encode i).length = 4 := by
  cases i with
  | set d v => exact Laws.EncodedLength.set d v
  | mov d r => exact Laws.EncodedLength.mov d r
  | add d a b => exact Laws.EncodedLength.add d a b
  | sub d a b => exact Laws.EncodedLength.sub d a b
  | readN d => exact Laws.EncodedLength.readN d
  | readS b c => exact Laws.EncodedLength.readS b c
  | putS b c => exact Laws.EncodedLength.putS b c
  | putN r f => exact Laws.EncodedLength.putN r f
  | jmp t => exact Laws.EncodedLength.jmp t
  | jeq t a b => exact Laws.EncodedLength.jeq t a b
  | jgt t a b => exact Laws.EncodedLength.jgt t a b
  | call d b => exact Laws.EncodedLength.call d b
  | exit r => exact Laws.EncodedLength.exit r

theorem flatMap_encode_length (is : List Instr) : (is.flatMap encode).length = 4 * is.length := by
  simp [List.length_flatMap, encode_length, Nat.mul_comm]

theorem executable_length (is : List Instr) : (executable is).length = 4 + 4 * is.length := by
  rw [executable, List.length_append, flatMap_encode_length]
  rfl

theorem assembleInstrs_eq_ok_iff {src : List Text} {is : List Instr} :
    assembleInstrs src = .ok is ↔ ∃ ls, resolve src = .ok ls ∧ ls.map encodeLine = is.map .ok := by
  simp only [assembleInstrs, Outcome.bind_eq_ok_iff, Outcome.all_eq_ok_iff]

theorem assemble_eq_ok_iff {src : List Text} {file : List Byte} :
    assemble src = .ok file ↔ ∃ is, assembleInstrs src = .ok is ∧ file = executable is := by
  simp only [assemble, Outcome.bind_eq_ok_iff, Outcome.ok.injEq, eq_comm (a := file)]

theorem assembleInstrs_wellFormed {src : List Text} {is : List Instr} (h : assembleInstrs src = .ok is) :
    ∀ i ∈ is, i.WellFormed = true := by
  intro i hi
  obtain ⟨ls, -, henc⟩ := assembleInstrs_eq_ok_iff.mp h
  have hmem : Outcome.ok i ∈ ls.map encodeLine := henc ▸ List.mem_map_of_mem hi
  obtain ⟨l, -, hl⟩ := List.mem_map.mp hmem
  exact encodeLine_wellFormed hl

/-- Settles O51: the file is the header and the encoded lines of pass 2, which keeps the lines' number and order. -/
theorem assembledFileIsWellFormed : Obligations.AssembledFileIsWellFormed := by
  intro src file h
  obtain ⟨is, his, rfl⟩ := assemble_eq_ok_iff.mp h
  obtain ⟨ls, hres, henc⟩ := assembleInstrs_eq_ok_iff.mp his
  obtain ⟨table, -, hls⟩ := resolve_eq_ok_iff.mp hres
  have hline := resolveLines_map_eq (fun _ _ => resolveLine_line) hls
  have hcount : is.length = (instrLines (readLines src)).length :=
    calc is.length = ls.length := by simpa using congrArg List.length henc.symm
      _ = (instrLines (readLines src)).length := by simpa using congrArg List.length hline
  exact ⟨is, ls, hres, henc, hline,
    resolveLines_map_eq (fun _ _ => resolveLine_mnemonic) hls,
    resolveLines_map_eq (fun _ _ => resolveLine_operands_tail) hls,
    rfl, fun i hi => ⟨assembleInstrs_wellFormed his i hi, encode_length i⟩, hcount, executable_length is⟩

end Sys2Proof.Machine.Asm
end

section
/-! PROOF. The ALU instructions write one register and advance (41_register_alu.md R119, R122, R123). -/

namespace Sys2Proof.Machine

/-- Writing a register and advancing has exactly that effect: the value is read back, the active pc moves by 4, and every
other register and field is kept. -/
theorem advance_writeReg_effect {s : State} {f : Frame} {rest : List Frame} (h : s.frames = f :: rest) (a v : Byte) :
    ∃ t, advance (s.writeReg a v) = .next t ∧ t.readReg a = v ∧
      EffectIs (· = a) ({ f with pc := f.pc + 4 } :: rest) s.out s.input s.status s t :=
  ⟨_, advance_cons (s := s.writeReg a v) h, readReg_writeReg_same s a v,
    fun _ hr => readReg_writeReg_other s v hr, rfl, rfl, rfl, rfl, rfl, rfl⟩

/-- Settles O10: the register written holds `aluAdd` of the old values, which is the sum modulo 256. -/
theorem addWritesSumModulo256 : Obligations.AddWritesSumModulo256 := by
  intro s f rest a b c h
  obtain ⟨t, ht, hval, heffect⟩ := advance_writeReg_effect h a (aluAdd (s.readReg b) (s.readReg c))
  exact ⟨rfl, t, ht, hval ▸ aluAdd_toNat _ _, heffect⟩

/-- Settles O11: the register written holds `aluSub` of the old values, which is the difference's least non-negative
residue modulo 256. -/
theorem subWritesDifferenceModulo256 : Obligations.SubWritesDifferenceModulo256 := by
  intro s f rest a b c h
  obtain ⟨t, ht, hval, heffect⟩ := advance_writeReg_effect h a (aluSub (s.readReg b) (s.readReg c))
  exact ⟨rfl, t, ht, hval ▸ aluSub_toNat _ _, heffect⟩

end Sys2Proof.Machine
end

section
/-! PROOF. PUT-S emits a register range as characters and advances (42_io.md R146, R153, R154). -/

namespace Sys2Proof.Machine

/-! ### Register ranges -/

/-- A register at or above the base is the ranged index of its own distance from the base. -/
theorem rangeIndex_sub {base r : Byte} (h : base.toNat ≤ r.toNat) : rangeIndex base (r.toNat - base.toNat) = r := by
  rw [rangeIndex, Nat.add_sub_cancel' h, BitVec.ofNat_toNat, BitVec.setWidth_eq]

@[simp] theorem readRange_length (s : State) (base count : Byte) : (s.readRange base count).length = count.toNat := by
  simp [State.readRange]

/-- A range holds each of its registers at the register's distance from the base. -/
theorem readRange_getElem? (s : State) {base count r : Byte} (h : inRange base count r) :
    (s.readRange base count)[r.toNat - base.toNat]? = some (s.readReg r) := by
  obtain ⟨hlow, hhigh⟩ := h
  have hpos : r.toNat - base.toNat < count.toNat := by omega
  simp [State.readRange, List.getElem?_range hpos, rangeIndex_sub hlow]

/-! ### Output -/

/-- Emitting codes and advancing has exactly that effect: the output grows by the codes, the active pc moves by 4, and
every register and every other field is kept. -/
theorem advance_emit_effect {s : State} {f : Frame} {rest : List Frame} (h : s.frames = f :: rest) (cs : List Byte) :
    ∃ t, advance (emit cs s) = .next t ∧
      EffectIs noReg ({ f with pc := f.pc + 4 } :: rest) (s.out ++ cs) s.input s.status s t :=
  ⟨_, advance_cons (s := emit cs s) h, fun r _ => readReg_emit s cs r, rfl, rfl, rfl, rfl, rfl, rfl⟩

/-- With its range inside the register file, PUT-S emits and advances. -/
theorem execPutS_of_range {s : State} {f : Frame} {rest : List Frame} {base count : Byte} (h : s.frames = f :: rest)
    (hrange : base.toNat + count.toNat ≤ 256) :
    execPutS base count s = advance (emit ((s.readRange base count).map putSCode) s) := by
  have hin : ¬ rangeOverruns base count = true := fun ho => Nat.not_lt.mpr hrange ((rangeOverruns_iff base count).mp ho)
  simp only [execPutS, h, if_neg hin]

/-- Settles O21: the codes emitted are those of the range's registers, each at its distance from the base. -/
theorem putSEmitsCharacters : Obligations.PutSEmitsCharacters := by
  intro s f rest a c h hrange
  obtain ⟨t, ht, heffect⟩ := advance_emit_effect h ((s.readRange a c).map putSCode)
  refine ⟨rfl, t, (s.readRange a c).map putSCode, (execPutS_of_range h hrange).trans ht, ?_, fun r hr => ?_, heffect⟩
  · rw [List.length_map, readRange_length]
  · rw [List.getElem?_map, readRange_getElem? s hr]
    rfl

end Sys2Proof.Machine
end

section
/-! PROOF. The conditional jumps move the active pc alone (43_branch.md R171, R172). -/

namespace Sys2Proof.Machine

/-- A conditional jump whose bit decides `cond` has exactly that effect: the active pc moves to the target when `cond`
holds and by 4 when it does not, and every register and every other field is kept. -/
theorem jumpIf_effect {s : State} {f : Frame} {rest : List Frame} (h : s.frames = f :: rest) {taken : Bool}
    {cond : Prop} [Decidable cond] (hcond : taken = true ↔ cond) (target : Byte) :
    ∃ t, jumpIf taken target s = .next t ∧
      EffectIs noReg ({ f with pc := if cond then target.toNat * 4 else f.pc + 4 } :: rest)
        s.out s.input s.status s t := by
  refine ⟨_, jumpIf_cons h taken target, fun _ _ => rfl, ?_, rfl, rfl, rfl, rfl, rfl⟩
  simp only [hcond, targetOffset]

/-- Settles O23: the bit JEQ branches on is `aluEq` of its registers, which decides their equality. -/
theorem jeqJumpsOnEqual : Obligations.JeqJumpsOnEqual := by
  intro s f rest a b c h
  exact ⟨rfl, jumpIf_effect h (aluEq_iff (s.readReg b) (s.readReg c)) a⟩

/-- Settles O24: the bit JGT branches on is `aluGtu` of its registers, which decides the unsigned comparison. -/
theorem jgtJumpsOnUnsignedGreater : Obligations.JgtJumpsOnUnsignedGreater := by
  intro s f rest a b c h
  exact ⟨rfl, jumpIf_effect h (aluGtu_iff (s.readReg b) (s.readReg c)) a⟩

end Sys2Proof.Machine
end

section
/-! PROOF. The encoder and the decoder agree (30_encoding.md Part A). -/

namespace Sys2Proof

/-- READ goes by its mode byte (30_encoding.md R65). -/
theorem decodeWord_read (a b c : Byte) :
    decodeWord opRead a b c =
      if b = modeReadN then .instr (.readN a) else if b = modeReadS then .instr (.readS a c) else .illegalReadMode b :=
  rfl

/-- PUT goes by its B byte (30_encoding.md R66). -/
theorem decodeWord_put (a b c : Byte) :
    decodeWord opPut a b c = if b = modePutS then .instr (.putS a c) else .instr (.putN a b) := rfl

/-- Settles O2: only PUT shares its opcode's word between forms by a byte that is an operand too, and a well-formed PUT-N
has not PUT-S's. -/
theorem decodeOfEncodeIsIdentity : Obligations.DecodeOfEncodeIsIdentity := by
  intro i rest hwf
  cases i with
  | putN src fmt => exact (decodeWord_put src fmt 0).trans (if_neg (bne_iff_ne.mp hwf))
  | set | mov | add | sub | readN | readS | putS | jmp | jeq | jgt | call | exit => rfl

/-- Settles O3: row by row of the opcode table; a slot without a role is the one that the encoder writes 0 in. -/
theorem decodedWordReencodes : Obligations.DecodedWordReencodes := by
  intro op a b c i h
  have row : Row op a b c (.instr i) := h ▸ decodeWord_row op a b c
  cases row with
  | putN _ _ _ hs => exact ⟨bne_iff_ne.mpr hs, b, 0, rfl, .inl rfl, .inr rfl, if_neg hs⟩
  | set | mov | readN | call => exact ⟨rfl, _, 0, rfl, .inl rfl, .inr rfl, rfl⟩
  | add | sub | readS | putS | jeq | jgt => exact ⟨rfl, _, c, rfl, .inl rfl, .inl rfl, rfl⟩
  | jmp | exit => exact ⟨rfl, 0, 0, rfl, .inr rfl, .inr rfl, rfl⟩

/-- An opcode outside the map is reported as unknown. -/
theorem decodeWord_of_notMem {op : Byte} (h : op ∉ opcodes) (a b c : Byte) : decodeWord op a b c = .unknownOpcode op := by
  have row := decodeWord_row op a b c
  generalize hd : decodeWord op a b c = d at row
  cases row with
  | unknown => rfl
  | set | mov | add | sub | readN | readS | readMode | putS | putN | jmp | jeq | jgt | call | exit =>
    exact absurd h (by decide)

/-- Settles O4: of the table's rows only the one for an opcode outside the map is unknown, and it reports that opcode. -/
theorem unassignedOpcodesAreUnknown : Obligations.UnassignedOpcodesAreUnknown := by
  intro op a b c
  have hop : ∀ op', decode [op, a, b, c] = .unknownOpcode op' → op' = op ∧ op ∉ opcodes := by
    intro op' h
    have row : Row op a b c (.unknownOpcode op') := h ▸ decodeWord_row op a b c
    cases row with
    | unknown _ _ _ _ hout => exact ⟨rfl, hout⟩
  refine ⟨fun h => ?_, ⟨fun h => (hop op h).2, fun hout => decodeWord_of_notMem hout a b c⟩, fun op' h => (hop op' h).1⟩
  exact absurd ((decode_truncated_iff _).mp h) (by simp)

/-- Settles O5. -/
theorem readModeSelectsForm : Obligations.ReadModeSelectsForm := decodeWord_read

/-- Settles O6. -/
theorem putModeSelectsForm : Obligations.PutModeSelectsForm := decodeWord_put

/-- Settles O7: READ and PUT look at C in their S form alone, the other five opcodes never look at the slot. -/
theorem unusedSlotsAreIgnored : Obligations.UnusedSlotsAreIgnored := by
  intro op a b c b' c'
  simp only [List.mem_cons, List.not_mem_nil, or_false]
  refine ⟨?_, ?_, ?_, ?_⟩
  · rintro (rfl | rfl | rfl) <;> rfl
  · rintro (rfl | rfl) <;> rfl
  · rintro rfl hs
    rw [readModeSelectsForm a b c, readModeSelectsForm a b c', if_neg hs, if_neg hs]
  · rintro rfl hs
    rw [putModeSelectsForm a b c, putModeSelectsForm a b c', if_neg hs, if_neg hs]

/-- Settles O1. -/
theorem specWordsDecode : Obligations.SpecWordsDecode := by
  unfold Obligations.SpecWordsDecode
  decide

end Sys2Proof
end

section
/-! PROOF. A step is an action carried out: what the machine is to do is settled by what the instruction can see, and doing
it looks at nothing more. -/

namespace Sys2Proof.Machine

/-! ### The registers and the port after an action -/

/-- Register writes in order. -/
def setAll (ws : List (Byte × Byte)) (x : Vector Byte 256) : Vector Byte 256 :=
  ws.foldl (fun x w => x.set w.1.toNat w.2 w.1.isLt) x

/-- The writes of a ranged form. -/
def rangeWrites (base : Byte) (v : Nat → Byte) (n : Nat) : List (Byte × Byte) :=
  (List.range n).map fun i => (rangeIndex base i, v i)

/-- The port after a READ: without its oldest line. -/
def InPort.taken (p : InPort) : InPort := { p with lines := p.lines.tail }

/-- A state after the writes, the output and the taking of a line, before the program counter moves. -/
def State.moved (takes : Bool) (ws : List (Byte × Byte)) (cs : List Byte) (s : State) : State :=
  { s with
    regs := setAll ws s.regs
    out := s.out ++ cs
    input := if takes then s.input.taken else s.input }

theorem setAll_get_of_notMem {ws : List (Byte × Byte)} {r : Byte} (h : r ∉ ws.map Prod.fst) (x : Vector Byte 256) :
    (setAll ws x)[r.toNat]'r.isLt = x[r.toNat]'r.isLt := by
  induction ws generalizing x with
  | nil => rfl
  | cons w ws ih =>
    obtain ⟨hw, hws⟩ := not_or.mp (mt List.mem_cons.mpr h)
    have hne : w.1.toNat ≠ r.toNat := fun e => hw (BitVec.eq_of_toNat_eq e.symm)
    exact (ih hws _).trans (Vector.getElem_set_ne _ _ hne)

/-- What is written does not depend on what stood there. -/
theorem setAll_get_of_mem {ws : List (Byte × Byte)} {r : Byte} (h : r ∈ ws.map Prod.fst) (x y : Vector Byte 256) :
    (setAll ws x)[r.toNat]'r.isLt = (setAll ws y)[r.toNat]'r.isLt := by
  induction ws generalizing x y with
  | nil => cases h
  | cons w ws ih =>
    by_cases hws : r ∈ ws.map Prod.fst
    · exact ih hws _ _
    · obtain rfl : r = w.1 := (List.mem_cons.mp h).resolve_right hws
      have hset : ∀ z : Vector Byte 256, (setAll (w :: ws) z)[w.1.toNat]'w.1.isLt = w.2 := fun z =>
        (setAll_get_of_notMem hws _).trans (Vector.getElem_set_self _)
      exact (hset x).trans (hset y).symm

theorem writeRange_eq_setAll (s : State) (base : Byte) (v : Nat → Byte) (n : Nat) :
    s.writeRange base v n = { s with regs := setAll (rangeWrites base v n) s.regs } := by
  induction n with
  | zero => rfl
  | succ n ih => simp [State.writeRange, State.writeReg, ih, rangeWrites, setAll, List.range_succ]

/-- A range's writes go to its registers. -/
theorem mem_rangeWrites_iff {base count : Byte} (h : base.toNat + count.toNat ≤ 256) (v : Nat → Byte) (r : Byte) :
    r ∈ (rangeWrites base v count.toNat).map Prod.fst ↔ inRange base count r := by
  simp only [rangeWrites, List.map_map, List.mem_map, List.mem_range, Function.comp_apply, inRange]
  constructor
  · rintro ⟨i, hi, rfl⟩
    rw [rangeIndex_toNat (by omega)]
    omega
  · rintro ⟨hlow, hhigh⟩
    exact ⟨r.toNat - base.toNat, by omega, rangeIndex_sub hlow⟩

/-! ### IN -/

/-- An answer of IN, and the port it leaves. -/
theorem inLine_eq (s : State) : inLine s = s.inputs.inAnswer.map fun ans => (ans, { s with input := s.input.taken }) := by
  cases h : inLine s with
  | none => simp [State.inputs, h]
  | some p =>
    obtain ⟨ans, s'⟩ := p
    obtain ⟨l, ls, hl, rfl, rfl⟩ | ⟨hl, -, rfl, rfl⟩ := inLine_some h
    · simp [State.inputs, h, InPort.taken, hl]
    · have htaken : s'.input.taken = s'.input := by rw [InPort.taken, hl, List.tail_nil, ← hl]
      simp [State.inputs, h, htaken]

theorem inAnswer_congr {s s' : State} (h : s'.input = s.input) : s'.inputs.inAnswer = s.inputs.inAnswer := by
  simp only [State.inputs, inLine, h]
  cases s.input.lines with
  | cons l ls => rfl
  | nil => cases s.input.ended <;> rfl

/-! ### Actions -/

/-- What a step does, once the word, the registers it reads and the host's answers are known. -/
inductive Action where
  /-- There is no active frame. -/
  | stuck
  /-- The status becomes a fault's. -/
  | fault (cause : FaultCause)
  /-- The READ hold. -/
  | hold
  /-- A line is taken, registers written, codes emitted; then the program counter goes to the target, or to the next word. -/
  | move (takes : Bool) (ws : List (Byte × Byte)) (cs : List Byte) (target : Option Nat)
  /-- A child starts. -/
  | call (code : List Byte) (dest : Byte)
  /-- The context ends. -/
  | finish (status : Byte)

/-- The program counter goes to the target, or to the next word. -/
def goTo (target : Option Nat) (s : State) : Result :=
  match target with
  | none => advance s
  | some pc => setPc pc s

/-- The action, carried out. -/
def Action.perform (a : Action) (s : State) : Result :=
  match a with
  | .stuck => .fault .noActiveContext
  | .fault cause => raise cause s
  | .hold => .next s
  | .move takes ws cs target => goTo target (s.moved takes ws cs)
  | .call code dest => .next (pushContext code dest s)
  | .finish status => endContext status s

/-- The action of a jump. -/
def jumpAction (taken : Bool) (target : Byte) : Action :=
  .move false [] [] (if taken then some (targetOffset target) else none)

/-- The action of an instruction. -/
def act (i : Instr) (s : State) : Action :=
  match i with
  | .set dest value => .move false [(dest, aluPass value)] [] none
  | .mov dest src => .move false [(dest, aluPass (s.readReg src))] [] none
  | .add dest src1 src2 => .move false [(dest, aluAdd (s.readReg src1) (s.readReg src2))] [] none
  | .sub dest src1 src2 => .move false [(dest, aluSub (s.readReg src1) (s.readReg src2))] [] none
  | .readN dest =>
    match s.inputs.inAnswer with
    | none => .hold
    | some ans => .move true [(dest, readNValue ans)] [] none
  | .readS base count =>
    match s.frames.head? with
    | none => .stuck
    | some f =>
      if rangeOverruns base count then .fault (.registerIndexOutOfRange f.pc base count)
      else
        match s.inputs.inAnswer with
        | none => .hold
        | some ans => .move true (rangeWrites base (readSValue ans) count.toNat) [] none
  | .putS base count =>
    match s.frames.head? with
    | none => .stuck
    | some f =>
      if rangeOverruns base count then .fault (.registerIndexOutOfRange f.pc base count)
      else .move false [] ((s.readRange base count).map putSCode) none
  | .putN src fmt => .move false [] (putRender s.config fmt (s.readReg src)) none
  | .jmp target => jumpAction true target
  | .jeq target src1 src2 => jumpAction (aluEq (s.readReg src1) (s.readReg src2)) target
  | .jgt target src1 src2 => jumpAction (aluGtu (s.readReg src1) (s.readReg src2)) target
  | .call dest nameBase =>
    match s.frames.head? with
    | none => .stuck
    | some f =>
      match callName s nameBase with
      | none => .fault (.unterminatedCallName f.pc nameBase)
      | some name =>
        if depthReached s then .fault (.callDepthExceeded f.pc s.frames.length)
        else
          match (load s name).bind streamOf with
          | none => .fault (.childExecutionError f.pc name)
          | some code => .call code dest
  | .exit src => .finish (s.readReg src)

/-- The action of a running machine with this active frame. -/
def nextAction (f : Frame) (s : State) : Action :=
  if f.code.length ≤ f.pc then .finish 0
  else
    match decode (fetch f) with
    | .truncated => .fault (.truncatedFetch f.pc)
    | .unknownOpcode op => .fault (.unknownOpcode f.pc op)
    | .illegalReadMode mode => .fault (.illegalReadMode f.pc mode)
    | .instr i => act i s

/-! ### The model's step is its action carried out -/

theorem moved_write (s : State) (i v : Byte) : s.moved false [(i, v)] [] = s.writeReg i v := by
  simp [State.moved, setAll, State.writeReg]

theorem moved_nothing (s : State) : s.moved false [] [] = s := by
  simp [State.moved, setAll]

theorem moved_take (s : State) (ws : List (Byte × Byte)) :
    s.moved true ws [] = { s with regs := setAll ws s.regs, input := s.input.taken } := by
  simp [State.moved]

theorem jumpIf_eq_perform (taken : Bool) (target : Byte) (s : State) :
    jumpIf taken target s = (jumpAction taken target).perform s := by
  cases taken <;> simp [jumpIf, jumpAction, Action.perform, goTo, moved_nothing]

theorem execReadN_eq_perform (dest : Byte) (s : State) : execReadN dest s = (act (.readN dest) s).perform s := by
  simp only [execReadN, act, inLine_eq]
  cases s.inputs.inAnswer with
  | none => rfl
  | some ans => exact congrArg advance (moved_take s [(dest, readNValue ans)]).symm

theorem execReadS_eq_perform (base count : Byte) (s : State) :
    execReadS base count s = (act (.readS base count) s).perform s := by
  cases hf : s.frames with
  | nil => simp [execReadS, act, Action.perform, hf]
  | cons f rest =>
    simp only [execReadS, act, hf, List.head?_cons, inLine_eq]
    split
    · rfl
    · cases s.inputs.inAnswer with
      | none => rfl
      | some ans =>
        exact congrArg advance ((writeRange_eq_setAll _ base (readSValue ans) count.toNat).trans (moved_take s _).symm)

theorem execPutS_eq_perform (base count : Byte) (s : State) :
    execPutS base count s = (act (.putS base count) s).perform s := by
  cases hf : s.frames with
  | nil => simp [execPutS, act, Action.perform, hf]
  | cons f rest =>
    simp only [execPutS, act, hf, List.head?_cons]
    split <;> rfl

theorem execCall_eq_perform (dest nameBase : Byte) (s : State) :
    execCall dest nameBase s = (act (.call dest nameBase) s).perform s := by
  cases hf : s.frames with
  | nil => simp [execCall, act, Action.perform, hf]
  | cons f rest =>
    simp only [execCall, act, hf, List.head?_cons]
    cases callName s nameBase with
    | none => rfl
    | some name =>
      simp only
      split
      · rfl
      · cases (load s name).bind streamOf <;> rfl

theorem exec_eq_perform (i : Instr) (s : State) : exec i s = (act i s).perform s := by
  cases i with
  | set | mov | add | sub => exact congrArg advance (moved_write s _ _).symm
  | readN d => exact execReadN_eq_perform d s
  | readS b c => exact execReadS_eq_perform b c s
  | putS b c => exact execPutS_eq_perform b c s
  | jmp t => exact jumpIf_eq_perform true t s
  | jeq t a b => exact jumpIf_eq_perform (aluEq (s.readReg a) (s.readReg b)) t s
  | jgt t a b => exact jumpIf_eq_perform (aluGtu (s.readReg a) (s.readReg b)) t s
  | call d b => exact execCall_eq_perform d b s
  | putN | exit => rfl

theorem step_eq_perform {s : State} {f : Frame} {rest : List Frame} (hr : s.status = .running) (hf : s.frames = f :: rest) :
    step s = (nextAction f s).perform s := by
  rw [step_cases hr hf, nextAction]
  split
  · rfl
  · cases decode (fetch f) with
    | instr i => exact exec_eq_perform i s
    | truncated | unknownOpcode | illegalReadMode => rfl

/-! ### What an instruction can see -/

/-- The register the scan is at with `n + 1` left. -/
theorem nameCell_toNat (n : Nat) : (BitVec.ofNat 8 (256 - (n + 1))).toNat = 256 - (n + 1) := by
  rw [BitVec.toNat_ofNat]
  omega

/-- The name scan reads its cells alone: from the start up to the first 0. -/
theorem nameScan_congr {s s' : State} {n : Nat} (hn : n ≤ 256)
    (h : ∀ r : Byte, 256 - n ≤ r.toNat → (∀ j : Byte, 256 - n ≤ j.toNat → j.toNat < r.toNat → s.readReg j ≠ 0) →
      s'.readReg r = s.readReg r) : nameScan s' n = nameScan s n := by
  induction n with
  | zero => rfl
  | succ n ih =>
    have hcell := nameCell_toNat n
    have hfirst := h (BitVec.ofNat 8 (256 - (n + 1))) hcell.ge (fun j hlow hhigh => by omega)
    simp only [nameScan, hfirst]
    split
    · rfl
    · rename_i hne
      refine congrArg _ (ih (by omega) fun r hlow hr => h r (by omega) fun j hj hjr => ?_)
      by_cases hj' : 256 - n ≤ j.toNat
      · exact hr j hj' hjr
      · obtain rfl : j = BitVec.ofNat 8 (256 - (n + 1)) := BitVec.eq_of_toNat_eq (by omega)
        exact hne

theorem callName_congr {s s' : State} {dest nameBase : Byte} (hc : s'.config = s.config)
    (h : ∀ r, readsReg (.call dest nameBase) s r → s'.readReg r = s.readReg r) :
    callName s' nameBase = callName s nameBase := by
  have hstart : nameStart s' nameBase = nameStart s nameBase := by
    unfold nameStart
    rw [hc]
    split
    · rfl
    · rename_i ha
      exact h nameBase (.inl ⟨ha, rfl⟩)
  have hbound : 256 - (256 - (nameStart s nameBase).toNat) = (nameStart s nameBase).toNat := by omega
  unfold callName
  rw [hstart]
  refine nameScan_congr (Nat.sub_le _ _) fun r hlow hr => h r (.inr ?_)
  rw [hbound] at hlow hr
  exact ⟨hlow, hr⟩

theorem readRange_congr {s s' : State} {base count : Byte} (hrange : base.toNat + count.toNat ≤ 256)
    (h : ∀ r, inRange base count r → s'.readReg r = s.readReg r) : s'.readRange base count = s.readRange base count := by
  refine List.map_congr_left fun i hi => h _ ?_
  have hi := List.mem_range.mp hi
  rw [inRange, rangeIndex_toNat (by omega)]
  omega

/-- In both states an instruction sees the same: the parameters, the active frame and the number of frames, the registers
of its row of the port table, and the host's answers. -/
structure SeesSame (i : Instr) (s s' : State) : Prop where
  config : s'.config = s.config
  active : s'.frames.head? = s.frames.head?
  depth : s'.frames.length = s.frames.length
  answer : s'.inputs.inAnswer = s.inputs.inAnswer
  regs : ∀ r, readsReg i s r → s'.readReg r = s.readReg r
  files : ∀ dest nameBase name, i = .call dest nameBase → depthReached s = false → callName s nameBase = some name →
    load s' name = load s name

/-- What an instruction does is settled by what it can see. -/
theorem act_congr {i : Instr} {s s' : State} (h : SeesSame i s s') : act i s' = act i s := by
  obtain ⟨hconfig, hactive, hdepth, hanswer, hregs, hfiles⟩ := h
  cases i with
  | set | jmp => rfl
  | mov d r => simp only [act, hregs r rfl]
  | add d a b => simp only [act, hregs a (.inl rfl), hregs b (.inr rfl)]
  | sub d a b => simp only [act, hregs a (.inl rfl), hregs b (.inr rfl)]
  | jeq t a b => simp only [act, hregs a (.inl rfl), hregs b (.inr rfl)]
  | jgt t a b => simp only [act, hregs a (.inl rfl), hregs b (.inr rfl)]
  | readN d => simp only [act, hanswer]
  | readS b c => simp only [act, hactive, hanswer]
  | putS b c =>
    by_cases hover : rangeOverruns b c = true
    · simp only [act, hactive, hover, if_true]
    · have hrange : b.toNat + c.toNat ≤ 256 := Nat.not_lt.mp (mt (rangeOverruns_iff b c).mpr hover)
      simp only [act, hactive, readRange_congr hrange hregs]
  | putN r x => simp only [act, hconfig, hregs r rfl]
  | call d b =>
    have hreached : depthReached s' = depthReached s := by simp only [depthReached, hconfig, hdepth]
    simp only [act, hactive, callName_congr hconfig hregs, hreached, hdepth]
    cases hname : callName s b with
    | none => rfl
    | some name =>
      cases hlimit : depthReached s with
      | true => rfl
      | false => simp only [hfiles d b name rfl hlimit hname]
  | exit r => simp only [act, hregs r rfl]

theorem nextAction_congr {f : Frame} {s s' : State} (h : ∀ i, decode (fetch f) = .instr i → SeesSame i s s') :
    nextAction f s' = nextAction f s := by
  unfold nextAction
  split
  · rfl
  · cases hd : decode (fetch f) with
    | instr i => exact act_congr (h i hd)
    | truncated | unknownOpcode | illegalReadMode => rfl

end Sys2Proof.Machine
end

section
/-! PROOF. What carrying out an action can do to the machine, and what it looks at. -/

namespace Sys2Proof.Machine

/-! ### The program counter's move -/

theorem goTo_cons {s : State} {f : Frame} {rest : List Frame} (h : s.frames = f :: rest) (target : Option Nat) :
    goTo target s = .next { s with frames := { f with pc := target.getD (f.pc + 4) } :: rest } := by
  cases target with
  | none => exact advance_cons h
  | some pc => exact setPc_cons h pc

theorem goTo_nil {s : State} (h : s.frames = []) (target : Option Nat) : goTo target s = .fault .noActiveContext := by
  cases target <;> simp [goTo, advance, setPc, h]

theorem goTo_fault {s : State} {target : Option Nat} {x : Fault} (h : goTo target s = .fault x) :
    s.frames = [] ∧ x = .noActiveContext := by
  cases hf : s.frames with
  | nil => rw [goTo_nil hf] at h; cases h; exact ⟨rfl, rfl⟩
  | cons f rest => rw [goTo_cons hf] at h; cases h

theorem goTo_next {s t : State} {target : Option Nat} (h : goTo target s = .next t) :
    ∃ f rest, s.frames = f :: rest ∧ t = { s with frames := { f with pc := target.getD (f.pc + 4) } :: rest } := by
  cases hf : s.frames with
  | nil => rw [goTo_nil hf] at h; cases h
  | cons f rest => rw [goTo_cons hf] at h; cases h; exact ⟨f, rest, rfl, rfl⟩

/-- Whether an action stops the machine depends on the frames alone. -/
theorem perform_fault_congr {a : Action} {s s' : State} {x : Fault} (hf : s'.frames = s.frames)
    (h : a.perform s = .fault x) : a.perform s' = .fault x := by
  cases a with
  | stuck => exact h
  | fault | hold | call => cases h
  | move takes ws cs target =>
    obtain ⟨hnil, rfl⟩ := goTo_fault h
    exact goTo_nil (s := s'.moved takes ws cs) (hf.trans hnil) target
  | finish status =>
    simp only [Action.perform, endContext, hf] at h ⊢
    split at h
    · exact h
    · cases h
    · split at h
      · exact h
      · cases h

/-! ### The actions of an instruction -/

/-- What is known of an instruction's action from its form. -/
inductive ActShape (i : Instr) (s : State) : Action → Prop where
  | stuck (hframes : s.frames = []) : ActShape i s .stuck
  | fault (cause : FaultCause) : ActShape i s (.fault cause)
  | hold : ActShape i s .hold
  /-- The registers written are those of the row of the port table, and a target is a word's. -/
  | move (takes : Bool) (ws : List (Byte × Byte)) (cs : List Byte) (target : Option Nat)
      (hws : ∀ r, r ∈ ws.map Prod.fst ↔ writesReg i s r) (htarget : ∀ pc ∈ target, pc % 4 = 0) :
      ActShape i s (.move takes ws cs target)
  | call (code : List Byte) (dest nameBase : Byte) (hi : i = .call dest nameBase) (hdepth : depthReached s = false) :
      ActShape i s (.call code dest)
  | finish (status src : Byte) (hi : i = .exit src) : ActShape i s (.finish status)

/-- A jump writes no register, and its target is a word's. -/
theorem jumpAction_shape {i : Instr} {s : State} (hi : ∀ r, ¬ writesReg i s r) (taken : Bool) (target : Byte) :
    ActShape i s (jumpAction taken target) := by
  refine .move _ _ _ _ (fun r => iff_of_false List.not_mem_nil (hi r)) fun pc hpc => ?_
  cases taken with
  | false => cases hpc
  | true => cases hpc; exact Nat.mul_mod_left target.toNat 4

theorem act_shape (i : Instr) (s : State) : ActShape i s (act i s) := by
  cases i with
  | set | mov | add | sub => exact .move _ _ _ _ (fun _ => List.mem_singleton) nofun
  | putN => exact .move _ _ _ _ (fun _ => iff_of_false List.not_mem_nil id) nofun
  | jmp | jeq | jgt => exact jumpAction_shape (fun _ => id) _ _
  | readN d =>
    simp only [act]
    split
    · exact .hold
    · exact .move _ _ _ _ (fun _ => List.mem_singleton) nofun
  | readS b c =>
    simp only [act]
    split
    · exact .stuck (List.head?_eq_none_iff.mp ‹_›)
    · split
      · exact .fault _
      · rename_i hover
        have hrange : b.toNat + c.toNat ≤ 256 := Nat.not_lt.mp (mt (rangeOverruns_iff b c).mpr hover)
        split
        · exact .hold
        · exact .move _ _ _ _ (mem_rangeWrites_iff hrange _) nofun
  | putS b c =>
    simp only [act]
    split
    · exact .stuck (List.head?_eq_none_iff.mp ‹_›)
    · split
      · exact .fault _
      · exact .move _ _ _ _ (fun _ => iff_of_false List.not_mem_nil id) nofun
  | call d b =>
    simp only [act]
    split
    · exact .stuck (List.head?_eq_none_iff.mp ‹_›)
    · split
      · exact .fault _
      · split
        · exact .fault _
        · rename_i hdepth
          split
          · exact .fault _
          · exact .call _ d b rfl (Bool.eq_false_of_not_eq_true hdepth)
  | exit r => exact .finish _ r rfl

/-! ### A subordinate's callers (decision D20) -/

/-- An action in a subordinate does the same whatever callers lie below it, and leaves them or pops to the first. -/
theorem perform_isolated {a : Action} {s t : State} {f caller caller' : Frame} {rest rest' : List Frame}
    (hs : s.frames = f :: caller :: rest) (hlen : rest'.length = rest.length) (h : a.perform s = .next t) :
    ∃ t', a.perform { s with frames := f :: caller' :: rest' } = .next t' ∧
      t'.regs = t.regs ∧ t'.out = t.out ∧ t'.input = t.input ∧ t'.status = t.status ∧
      ((∃ top, t.frames = top ++ caller :: rest ∧ t'.frames = top ++ caller' :: rest') ∨
       (t.frames = { caller with pc := caller.pc + 4 } :: rest ∧
        t'.frames = { caller' with pc := caller'.pc + 4 } :: rest')) := by
  cases a with
  | stuck => cases h
  | fault cause =>
    cases h
    exact ⟨_, rfl, rfl, rfl, rfl, by simp only [hs, List.length_cons, hlen], .inl ⟨[f], hs, rfl⟩⟩
  | hold =>
    cases h
    exact ⟨_, rfl, rfl, rfl, rfl, rfl, .inl ⟨[f], hs, rfl⟩⟩
  | move takes ws cs target =>
    obtain ⟨g, below, hg, rfl⟩ := goTo_next h
    cases hs.symm.trans hg
    exact ⟨_, goTo_cons (s := State.moved takes ws cs { s with frames := f :: caller' :: rest' }) rfl target, rfl, rfl, rfl, rfl,
      .inl ⟨[_], rfl, rfl⟩⟩
  | call code dest =>
    cases h
    exact ⟨_, rfl, rfl, rfl, rfl, rfl, .inl ⟨[_, f], congrArg _ hs, rfl⟩⟩
  | finish status =>
    obtain ⟨g, hg, -⟩ | ⟨child, under, below, dest, hframes, hdest, rfl⟩ := endContext_next h
    · cases hs.symm.trans hg
    · cases hs.symm.trans hframes
      exact ⟨_, endContext_subordinate (s := { s with frames := f :: caller' :: rest' }) rfl hdest status, rfl, rfl, rfl, rfl,
        .inr ⟨rfl, rfl⟩⟩

/-- Settles O43: nothing an instruction can see lies in the callers, but their number. -/
theorem calleeIsIsolatedFromCallers : Obligations.CalleeIsIsolatedFromCallers := by
  intro s t f caller caller' rest rest' hs hlen h
  have hr := step_running h
  have hsees : ∀ i, decode (fetch f) = .instr i → SeesSame i s { s with frames := f :: caller' :: rest' } := fun i _ =>
    { config := rfl
      active := by rw [hs, List.head?_cons, List.head?_cons]
      depth := by simp only [hs, List.length_cons, hlen]
      answer := inAnswer_congr rfl
      regs := fun _ _ => rfl
      files := fun _ _ _ _ _ _ => rfl }
  rw [step_eq_perform hr hs] at h
  rw [step_eq_perform (s := { s with frames := f :: caller' :: rest' }) hr rfl, nextAction_congr hsees]
  exact perform_isolated hs hlen h

/-! ### Register ports (10_state.md R22) -/

/-- Settles O41: an action writes its list of registers, or, ending a subordinate, the destination. -/
theorem writesOnlyItsRegisters : Obligations.WritesOnlyItsRegisters := by
  intro i s t r h hr
  rw [exec_eq_perform] at h
  have shape := act_shape i s
  generalize act i s = a at h shape
  cases shape with
  | stuck => cases h
  | fault | hold | call => cases h; rfl
  | move takes ws cs target hws =>
    obtain ⟨f, rest, -, rfl⟩ := goTo_next h
    exact setAll_get_of_notMem (mt (hws r).mp hr) s.regs
  | finish status src hi =>
    subst hi
    obtain ⟨f, hf, rfl⟩ | ⟨child, caller, rest, dest, hf, hd, rfl⟩ := endContext_next h
    · rfl
    · refine readReg_writeReg_other _ status fun hrd => hr ?_
      simp only [writesReg, hf, hd, hrd]

/-- Settles O42: the action is the same in both states, and what it writes does not depend on what stood there. -/
theorem dependsOnlyOnItsRegisters : Obligations.DependsOnlyOnItsRegisters := by
  intro i s s' hframes hout hinput hstatus hloader hconfig hregs
  have hact : act i s' = act i s := act_congr
    { config := hconfig
      active := congrArg _ hframes
      depth := congrArg _ hframes
      answer := inAnswer_congr hinput
      regs := hregs
      files := fun _ _ name _ _ _ => by simp only [load, hloader] }
  simp only [exec_eq_perform, hact]
  refine ⟨fun t h => ?_, fun x h => perform_fault_congr hframes h⟩
  have shape := act_shape i s
  generalize act i s = a at h shape
  cases shape with
  | stuck => cases h
  | fault cause => cases h; exact ⟨_, rfl, hframes, hout, hinput, by simp only [hframes], .inr ⟨rfl, rfl⟩⟩
  | hold => cases h; exact ⟨_, rfl, hframes, hout, hinput, hstatus, .inr ⟨rfl, rfl⟩⟩
  | call => cases h; exact ⟨_, rfl, congrArg (_ :: ·) hframes, hout, hinput, hstatus, .inr ⟨rfl, rfl⟩⟩
  | move takes ws cs target hws =>
    obtain ⟨f, rest, hf, rfl⟩ := goTo_next h
    refine ⟨_, goTo_cons (s := s'.moved takes ws cs) (hframes.trans hf) target, rfl, by simp only [State.moved, hout],
      by simp only [State.moved, hinput], hstatus, .inl fun r hr => ?_⟩
    exact setAll_get_of_mem ((hws r).mpr hr) s'.regs s.regs
  | finish status src hi =>
    subst hi
    obtain ⟨f, hf, rfl⟩ | ⟨child, caller, rest, dest, hf, hd, rfl⟩ := endContext_next h
    · exact ⟨_, endContext_root (hframes.trans hf) status, hframes, hout, hinput, rfl, .inr ⟨rfl, rfl⟩⟩
    · refine ⟨_, endContext_subordinate (hframes.trans hf) hd status, rfl, hout, hinput, hstatus, .inl fun r hr => ?_⟩
      simp only [writesReg, hf, hd, Option.some.injEq] at hr
      rw [← hr, readReg_writeReg_same, readReg_writeReg_same]

end Sys2Proof.Machine
end

section
/-! PROOF. What every step keeps (10_state.md §2, 40_cycle.md, 60_exceptions.md §1). -/

namespace Sys2Proof.Machine

/-! ### Well-formed frame stacks -/

theorem framesWf_pc {f : Frame} {rest : List Frame} (h : framesWf (f :: rest) = true) : f.pc % 4 = 0 := by
  cases rest with
  | nil => simp_all [framesWf]
  | cons caller rest => simp_all [framesWf]

/-- The active program counter may move by words. -/
theorem framesWf_setPc {f : Frame} {rest : List Frame} (h : framesWf (f :: rest) = true) {pc : Nat} (hpc : pc % 4 = 0) :
    framesWf ({ f with pc := pc } :: rest) = true := by
  cases rest with
  | nil => simp_all [framesWf]
  | cons caller rest => simp_all [framesWf]

theorem framesWf_push {f : Frame} {rest : List Frame} (h : framesWf (f :: rest) = true) {dest : Byte}
    (hcall : f.standsAtCall dest = true) (code : List Byte) :
    framesWf ({ code := code, pc := 0, dest := some dest } :: f :: rest) = true := by
  simp [framesWf, hcall, h]

theorem framesWf_tail {f caller : Frame} {rest : List Frame} (h : framesWf (f :: caller :: rest) = true) :
    framesWf (caller :: rest) = true := by
  simp only [framesWf, Bool.and_eq_true] at h
  exact h.2

theorem framesWf_dest {f caller : Frame} {rest : List Frame} (h : framesWf (f :: caller :: rest) = true) :
    ∃ dest, f.dest = some dest := by
  cases hd : f.dest with
  | none => simp [framesWf, hd] at h
  | some dest => exact ⟨dest, rfl⟩

/-! ### The invariant -/

theorem invariant_iff {s : State} :
    Invariant s = true ↔ (framesWf s.frames = true ∨ launchFailed s = true) ∧ depthWithin s = true := by
  simp [Invariant]

/-- A running machine that meets the invariant has an active frame on a well-formed stack. -/
theorem invariant_running {s : State} (h : Invariant s = true) (hr : s.status = .running) :
    ∃ f rest, s.frames = f :: rest ∧ framesWf (f :: rest) = true := by
  obtain ⟨hwf | hfailed, -⟩ := invariant_iff.mp h
  · cases hf : s.frames with
    | nil => rw [hf] at hwf; cases hwf
    | cons f rest => exact ⟨f, rest, rfl, hf ▸ hwf⟩
  · simp [launchFailed, hr] at hfailed

theorem depthWithin_of_le {s t : State} (h : depthWithin s = true) (hc : t.config = s.config)
    (hlen : t.frames.length ≤ s.frames.length) : depthWithin t = true := by
  cases hd : s.config.maxCallDepth with
  | none => simp only [depthWithin, hc, hd]
  | some d =>
    simp only [depthWithin, hc, hd, decide_eq_true_eq] at h ⊢
    exact hlen.trans h

theorem depthWithin_push {s : State} (h : depthReached s = false) (code : List Byte) (dest : Byte) :
    depthWithin (pushContext code dest s) = true := by
  cases hd : s.config.maxCallDepth with
  | none => simp only [depthWithin, pushContext_config, hd]
  | some d =>
    simp only [depthReached, hd, decide_eq_false_iff_not] at h
    simp only [depthWithin, pushContext_config, hd, pushContext_frames, List.length_cons]
    exact decide_eq_true (by omega)

/-- The end of the stream, a fault of the fetch, or the decoded instruction's action. -/
theorem nextAction_shape (f : Frame) (s : State) :
    nextAction f s = .finish 0 ∨ (∃ cause, nextAction f s = .fault cause) ∨
      ∃ i, decode (fetch f) = .instr i ∧ ActShape i s (nextAction f s) := by
  unfold nextAction
  split
  · exact .inl rfl
  · cases decode (fetch f) with
    | truncated | unknownOpcode | illegalReadMode => exact .inr (.inl ⟨_, rfl⟩)
    | instr i => exact .inr (.inr ⟨i, rfl, act_shape i s⟩)

/-- A child starts only where the decoded instruction is a CALL with its destination, below the depth limit. -/
theorem nextAction_call {f : Frame} {s : State} {code : List Byte} {dest : Byte} (h : nextAction f s = .call code dest) :
    f.standsAtCall dest = true ∧ depthReached s = false := by
  obtain hend | ⟨cause, hfault⟩ | ⟨i, hd, shape⟩ := nextAction_shape f s
  · cases h.symm.trans hend
  · cases h.symm.trans hfault
  · rw [h] at shape
    cases shape with
    | call _ _ nameBase hi hdepth =>
      subst hi
      exact ⟨by simp [Frame.standsAtCall, hd], hdepth⟩

/-- Wherever a program counter goes, it stays a multiple of 4. -/
theorem nextAction_target {f : Frame} {s : State} {takes : Bool} {ws : List (Byte × Byte)} {cs : List Byte} {pc : Nat}
    (h : nextAction f s = .move takes ws cs (some pc)) : pc % 4 = 0 := by
  obtain hend | ⟨cause, hfault⟩ | ⟨i, -, shape⟩ := nextAction_shape f s
  · cases h.symm.trans hend
  · cases h.symm.trans hfault
  · rw [h] at shape
    cases shape with
    | move _ _ _ _ _ htarget => exact htarget pc rfl

theorem nextAction_ne_stuck {f : Frame} {rest : List Frame} {s : State} (hf : s.frames = f :: rest) :
    nextAction f s ≠ .stuck := by
  intro h
  obtain hend | ⟨cause, hfault⟩ | ⟨i, -, shape⟩ := nextAction_shape f s
  · cases h.symm.trans hend
  · cases h.symm.trans hfault
  · rw [h] at shape
    cases shape with
    | stuck hnil => cases hf.symm.trans hnil

/-- Settles O47: by the step's action. Only a move, a CALL and the end of a context change a frame. -/
theorem stepKeepsInvariant : Obligations.StepKeepsInvariant := by
  intro s t hinv h
  have hr := step_running h
  obtain ⟨f, rest, hf, hwf⟩ := invariant_running hinv hr
  obtain ⟨-, hdepth⟩ := invariant_iff.mp hinv
  have hframes : framesWf s.frames = true := hf ▸ hwf
  rw [step_eq_perform hr hf] at h
  rw [invariant_iff]
  cases ha : nextAction f s with rw [ha] at h
  | stuck => cases h
  | fault cause => cases h; exact ⟨.inl hframes, depthWithin_of_le hdepth rfl le_rfl⟩
  | hold => cases h; exact ⟨.inl hframes, hdepth⟩
  | move takes ws cs target =>
    obtain ⟨g, below, hg, rfl⟩ := goTo_next h
    cases hf.symm.trans hg
    refine ⟨.inl (framesWf_setPc hwf ?_), depthWithin_of_le hdepth rfl (by simp [hf])⟩
    cases target with
    | none => have := framesWf_pc hwf; simp only [Option.getD_none]; omega
    | some pc => exact nextAction_target ha
  | call code dest =>
    cases h
    obtain ⟨hcall, hlimit⟩ := nextAction_call ha
    refine ⟨.inl ?_, depthWithin_push hlimit code dest⟩
    rw [pushContext_frames, hf]
    exact framesWf_push hwf hcall code
  | finish status =>
    obtain ⟨g, -, rfl⟩ | ⟨child, caller, under, dest, hg, -, rfl⟩ := endContext_next h
    · exact ⟨.inl hframes, depthWithin_of_le hdepth rfl le_rfl⟩
    · have htail := framesWf_tail (hg ▸ hframes)
      have := framesWf_pc htail
      exact ⟨.inl (framesWf_setPc htail (by omega)), depthWithin_of_le hdepth rfl (by simp [hg])⟩

/-- Settles O48: with an active frame no action is stuck, and on a well-formed stack the end of a context is defined. -/
theorem runningMachineAlwaysSteps : Obligations.RunningMachineAlwaysSteps := by
  intro s hinv hr
  obtain ⟨f, rest, hf, hwf⟩ := invariant_running hinv hr
  rw [step_eq_perform hr hf]
  cases ha : nextAction f s with
  | stuck => exact absurd ha (nextAction_ne_stuck hf)
  | fault | hold | call => exact ⟨_, rfl⟩
  | move takes ws cs target => exact ⟨_, goTo_cons (s := s.moved takes ws cs) hf target⟩
  | finish status =>
    cases rest with
    | nil => exact ⟨_, endContext_root hf status⟩
    | cons caller rest =>
      obtain ⟨dest, hd⟩ := framesWf_dest hwf
      exact ⟨_, endContext_subordinate hf hd status⟩

/-! ### Launch (70_reset_and_hazards.md) -/

theorem validHeader_iff (file : List Byte) : validHeader file = true ↔ ∃ code, file = header ++ code := by
  simp only [validHeader, beq_iff_eq]
  constructor
  · exact fun h => ⟨file.drop 4, by rw [← h, List.take_append_drop]⟩
  · rintro ⟨code, rfl⟩
    rfl

theorem streamOf_header (code : List Byte) : streamOf (header ++ code) = some code := rfl

theorem streamOf_eq_none_iff (file : List Byte) : streamOf file = none ↔ ∀ code, file ≠ header ++ code := by
  rw [streamOf, ite_eq_right_iff, ← not_exists, ← validHeader_iff]
  simp

theorem launch_of_stream {file code : List Byte} (h : streamOf file = some code) (input : InPort) (files : List HostFile)
    (config : Config) :
    State.launch file input files config =
      { regs := Vector.replicate 256 0, frames := [{ code := code, pc := 0, dest := none }], out := [], status := .running,
        input := input, loader := files, config := config } := by
  simp [State.launch, h]

theorem launch_of_no_stream {file : List Byte} (h : streamOf file = none) (input : InPort) (files : List HostFile)
    (config : Config) :
    State.launch file input files config =
      { regs := Vector.replicate 256 0, frames := [], out := [],
        status := .faulted { cause := .invalidHeader, depth := 0 }, input := input, loader := files, config := config } := by
  simp [State.launch, h]

theorem step_of_ended {s : State} {code : Byte} (h : s.status.exitStatus = some code) : step s = .fault (.runEnded code) := by
  simp only [step, h]

/-- Settles O34. -/
theorem endedMachineTakesNoStep : Obligations.EndedMachineTakesNoStep :=
  fun _ => ⟨fun _ h => step_of_ended (by rw [h]; rfl), fun _ h => step_of_ended (by rw [h]; rfl)⟩

/-- Settles O44: by the stream of the file, which it has exactly when it begins with the header. -/
theorem launchChecksHeaderAndResets : Obligations.LaunchChecksHeaderAndResets := by
  intro file input files config
  constructor
  · rintro code rfl
    refine ⟨fun r => ?_, rfl, rfl, rfl, rfl⟩
    exact Vector.getElem_replicate r.isLt
  · intro hfile
    have hlaunch := launch_of_no_stream ((streamOf_eq_none_iff file).mpr hfile) input files config
    have hstatus := congrArg (fun s : State => s.status) hlaunch
    exact ⟨hstatus, step_of_ended (by rw [hstatus]; rfl)⟩

/-- Settles O45. -/
theorem resetState : Obligations.ResetState :=
  ⟨fun r => Vector.getElem_replicate r.isLt, rfl, rfl, rfl, rfl, rfl, rfl⟩

/-- Settles O46: a launch gives the root alone, or no frame and the status that says so. -/
theorem launchEstablishesInvariant : Obligations.LaunchEstablishesInvariant := by
  have hlaunch : ∀ (file : List Byte) (input : InPort) (files : List HostFile) (config : Config),
      Invariant (State.launch file input files config) = true := by
    intro file input files config
    rw [invariant_iff]
    cases h : streamOf file with
    | none =>
      rw [launch_of_no_stream h]
      exact ⟨.inr (by simp [launchFailed]), by unfold depthWithin; split <;> simp⟩
    | some code =>
      rw [launch_of_stream h]
      exact ⟨.inl rfl, by unfold depthWithin; split <;> simp⟩
  exact ⟨hlaunch header { lines := [], ended := false } [] Config.default, hlaunch⟩

/-! ### Frames, output, input, parameters: by the shapes of a step -/

/-- Settles O35: of the shapes of a step only the fault leaves a faulted status. -/
theorem faultsArePrecise : Obligations.FaultsArePrecise := by
  intro s t record h ht
  have hr := step_running h
  cases step_shape h with
  | raised cause hs => subst hs; cases ht; exact ⟨rfl, rfl⟩
  | held hs => subst hs; cases hr.symm.trans ht
  | moved _ _ _ _ _ _ _ _ hst => cases hr.symm.trans (hst.symm.trans ht)
  | called _ _ _ _ _ _ _ hs => subst hs; cases hr.symm.trans ht
  | ended code hs =>
    obtain ⟨f, -, rfl⟩ | ⟨child, caller, rest, dest, -, -, rfl⟩ := endContext_next hs
    · cases ht
    · cases hr.symm.trans ht

/-- Settles O36: a move to another word writes no register, and no other shape that keeps the number of frames does. -/
theorem noStepBranchesAndWrites : Obligations.NoStepBranchesAndWrites := by
  intro s t f g rest h hs ht hpc
  cases step_shape h with
  | raised cause hs => rw [hs]
  | held hs => rw [hs]
  | moved f' rest' pc hs' ht' hpc' =>
    cases hs.symm.trans hs'
    cases ht.symm.trans ht'
    exact (hpc'.resolve_left hpc).2
  | called _ _ _ _ _ _ _ hs => rw [hs]; rfl
  | ended code hend =>
    obtain ⟨f', -, rfl⟩ | ⟨child, caller, rest', dest, hs', -, rfl⟩ := endContext_next hend
    · rfl
    · cases hs.symm.trans hs'
      have hlen := congrArg List.length ht
      simp at hlen

/-- Settles O37. -/
theorem stackChangesOnlyAtItsTop : Obligations.StackChangesOnlyAtItsTop := by
  intro s t h
  cases step_shape h with
  | raised cause hs => exact .inl (by rw [hs])
  | held hs => exact .inl (by rw [hs])
  | moved f rest pc hs ht => exact .inr (.inl ⟨f, rest, pc, hs, ht⟩)
  | called dest name file code _ _ _ hs => exact .inr (.inr (.inl ⟨_, by rw [hs]; rfl, rfl, rfl⟩))
  | ended code hend =>
    obtain ⟨f, -, rfl⟩ | ⟨child, caller, rest, dest, hs, -, rfl⟩ := endContext_next hend
    · exact .inl rfl
    · exact .inr (.inr (.inr ⟨child, caller, rest, hs, rfl⟩))

/-- Moving a program counter leaves every stream, counted from the root. -/
theorem code_reverse_setPc (f : Frame) (rest : List Frame) (pc k : Nat) :
    (({ f with pc := pc } :: rest).reverse[k]?).map Frame.code = ((f :: rest).reverse[k]?).map Frame.code := by
  simp only [← List.getElem?_map, List.map_reverse, List.map_cons]

/-- Settles O38: counted from the root, a frame keeps its place, and what is pushed or popped is the last. -/
theorem streamsNeverChange : Obligations.StreamsNeverChange := by
  intro s t k h hks hkt
  obtain ht | ⟨f, rest, pc, hs, ht⟩ | ⟨child, ht, -⟩ | ⟨f, caller, rest, hs, ht⟩ := stackChangesOnlyAtItsTop s t h
  · rw [ht]
  · rw [hs, ht, code_reverse_setPc]
  · rw [ht, List.reverse_cons, List.getElem?_append_left (by simpa using hks)]
  · have hk : k < (caller :: rest).reverse.length := by simpa [ht] using hkt
    rw [hs, ht, code_reverse_setPc, List.reverse_cons (as := caller :: rest), List.getElem?_append_left hk]

/-- Settles O39. -/
theorem outputGrowsAndInputShrinks : Obligations.OutputGrowsAndInputShrinks := by
  intro s t h
  have hsame : t.out = s.out → t.input = s.input → (∃ cs, t.out = s.out ++ cs) ∧ t.input.ended = s.input.ended ∧
      (t.input.lines = s.input.lines ∨ ∃ l, s.input.lines = l :: t.input.lines) := fun hout hin =>
    ⟨⟨[], by rw [hout, List.append_nil]⟩, by rw [hin], .inl (by rw [hin])⟩
  cases step_shape h with
  | raised cause hs => exact hsame (by rw [hs]) (by rw [hs])
  | held hs => exact hsame (by rw [hs]) (by rw [hs])
  | moved _ _ _ _ _ _ hout hin =>
    obtain hin | ⟨l, hl, he⟩ := hin
    · exact ⟨hout, by rw [hin], .inl (by rw [hin])⟩
    · exact ⟨hout, he, .inr ⟨l, hl⟩⟩
  | called _ _ _ _ _ _ _ hs => exact hsame (by rw [hs]; rfl) (by rw [hs]; rfl)
  | ended code hend =>
    obtain ⟨f, -, rfl⟩ | ⟨child, caller, rest, dest, -, -, rfl⟩ := endContext_next hend
    · exact hsame rfl rfl
    · exact hsame rfl rfl

/-- Settles O40. -/
theorem stepKeepsParameters : Obligations.StepKeepsParameters := by
  intro s t h
  cases step_shape h with
  | raised cause hs => rw [hs]; exact ⟨rfl, rfl⟩
  | held hs => rw [hs]; exact ⟨rfl, rfl⟩
  | moved _ _ _ _ _ _ _ _ _ hl hc => exact ⟨hc, hl⟩
  | called _ _ _ _ _ _ _ hs => rw [hs]; exact ⟨rfl, rfl⟩
  | ended code hend =>
    obtain ⟨f, -, rfl⟩ | ⟨child, caller, rest, dest, -, -, rfl⟩ := endContext_next hend
    · exact ⟨rfl, rfl⟩
    · exact ⟨rfl, rfl⟩

end Sys2Proof.Machine
end

section
/-! PROOF. What single instructions do: SET, MOV, READ, PUT-N, JMP (41_register_alu.md §2, 42_io.md, 43_branch.md). -/

namespace Sys2Proof.Machine

/-! ### Registers -/

/-- Settles O8. -/
theorem setWritesImmediate : Obligations.SetWritesImmediate :=
  fun _ _ _ a b h => ⟨fun _ => rfl, advance_writeReg_effect h a b⟩

/-- Settles O9. -/
theorem movCopiesRegister : Obligations.MovCopiesRegister :=
  fun s _ _ a b h => ⟨fun _ => rfl, advance_writeReg_effect h a (s.readReg b)⟩

/-! ### Input -/

theorem readNValue_of_number {l : List Nat} {n : Int} (h : parseDec l = some n) :
    ((readNValue (.line l)).toNat : Int) = n % 256 := by
  simp only [readNValue, h, BitVec.toNat_ofInt]
  omega

theorem readNValue_of_no_number {l : List Nat} (h : parseDec l = none) : readNValue (.line l) = 0 := by
  simp only [readNValue, h]

theorem readSValue_of_char {l : List Nat} {i ch : Nat} (h : l[i]? = some ch) :
    (readSValue (.line l) i).toNat = ch % 256 := by
  simp only [readSValue, h, BitVec.toNat_ofNat]
  omega

theorem readSValue_of_padding {l : List Nat} {i : Nat} (h : l.length ≤ i) : readSValue (.line l) i = 0 := by
  simp only [readSValue, List.getElem?_eq_none h]

theorem not_rangeOverruns {base count : Byte} (h : base.toNat + count.toNat ≤ 256) :
    ¬ rangeOverruns base count = true :=
  mt (rangeOverruns_iff base count).mp (Nat.not_lt.mpr h)

theorem execReadN_of_answer {s s' : State} {ans : InAnswer} (h : inLine s = some (ans, s')) (dest : Byte) :
    execReadN dest s = advance (s'.writeReg dest (readNValue ans)) := by
  simp only [execReadN, h]

theorem execReadN_hold {s : State} (h : inLine s = none) (dest : Byte) : execReadN dest s = .next s := by
  simp only [execReadN, h]

/-- A READ-S with its range inside the register file goes by the answer of IN. -/
theorem execReadS_of_answer {s s' : State} {ans : InAnswer} {f : Frame} {rest : List Frame} {base count : Byte}
    (h : s.frames = f :: rest) (hrange : base.toNat + count.toNat ≤ 256) (hin : inLine s = some (ans, s')) :
    execReadS base count s = advance (s'.writeRange base (readSValue ans) count.toNat) := by
  simp only [execReadS, h, if_neg (not_rangeOverruns hrange), hin]

theorem execReadS_hold {s : State} {f : Frame} {rest : List Frame} {base count : Byte}
    (h : s.frames = f :: rest) (hrange : base.toNat + count.toNat ≤ 256) (hin : inLine s = none) :
    execReadS base count s = .next s := by
  simp only [execReadS, h, if_neg (not_rangeOverruns hrange), hin]

/-- Writing a range and advancing has exactly that effect. -/
theorem advance_writeRange_effect {s : State} {f : Frame} {rest : List Frame} (h : s.frames = f :: rest) {a c : Byte}
    (hrange : a.toNat + c.toNat ≤ 256) (v : Nat → Byte) :
    ∃ t, advance (s.writeRange a v c.toNat) = .next t ∧
      (∀ r, inRange a c r → t.readReg r = v (r.toNat - a.toNat)) ∧
      EffectIs (inRange a c) ({ f with pc := f.pc + 4 } :: rest) s.out s.input s.status s t :=
  ⟨_, advance_cons ((writeRange_frames s a v c.toNat).trans h),
    fun r hr => (readReg_writeRange s a v hrange r).trans (if_pos hr),
    fun r hr => (readReg_writeRange s a v hrange r).trans (if_neg hr), rfl,
    writeRange_out s a v _, writeRange_input s a v _, writeRange_status s a v _, writeRange_loader s a v _,
    writeRange_config s a v _⟩

/-- Settles O12: by the answer of IN, a line or the end of the input. -/
theorem readNStoresDecimal : Obligations.ReadNStoresDecimal := by
  intro s f rest a h
  refine ⟨fun _ => rfl, fun l ls hl => ?_, fun hl he => ?_⟩
  · obtain ⟨t, ht, hval, heffect⟩ :=
      advance_writeReg_effect (s := { s with input := { s.input with lines := ls } }) h a (readNValue (.line l))
    refine ⟨t, (execReadN_of_answer (inLine_line hl) a).trans ht, fun n hn => ?_, fun hn => ?_, heffect⟩
    · rw [hval, readNValue_of_number hn]
    · rw [hval, readNValue_of_no_number hn]
  · obtain ⟨t, ht, hval, heffect⟩ := advance_writeReg_effect h a (readNValue .eof)
    exact ⟨t, (execReadN_of_answer (inLine_eof hl he) a).trans ht, hval, heffect⟩

/-- Settles O14: by the answer of IN; the value of a register is that of its distance from the base. -/
theorem readSStoresCharacters : Obligations.ReadSStoresCharacters := by
  intro s f rest a c h hrange
  refine ⟨rfl, fun l ls hl => ?_, fun hl he => ?_⟩
  · obtain ⟨t, ht, hval, heffect⟩ := advance_writeRange_effect (s := { s with input := { s.input with lines := ls } }) h
      hrange (readSValue (.line l))
    refine ⟨t, (execReadS_of_answer h hrange (inLine_line hl)).trans ht, fun r hr => ⟨fun ch hch => ?_, fun hlen => ?_⟩, heffect⟩
    · rw [hval r hr, readSValue_of_char hch]
    · rw [hval r hr, readSValue_of_padding hlen]
  · obtain ⟨t, ht, hval, heffect⟩ := advance_writeRange_effect h hrange (readSValue .eof)
    exact ⟨t, (execReadS_of_answer h hrange (inLine_eof hl he)).trans ht, hval, heffect⟩

/-- Settles O15: both ranged forms check the range before anything else. -/
theorem rangePast255Faults : Obligations.RangePast255Faults := by
  intro s f rest a c h hover
  have hover := (rangeOverruns_iff a c).mpr hover
  refine ⟨?_, ?_⟩
  · simp only [exec, execReadS, h, if_pos hover, raise]
  · simp only [exec, execPutS, h, if_pos hover, raise]

/-! ### Output and jumps -/

/-- Settles O18. -/
theorem putNEmitsRendering : Obligations.PutNEmitsRendering :=
  fun s _ _ a b h hb => ⟨fun c => (putModeSelectsForm a b c).trans (if_neg hb),
    advance_emit_effect h (putRender s.config b (s.readReg a))⟩

/-- Settles O22. -/
theorem jmpSetsPc : Obligations.JmpSetsPc :=
  fun _ _ _ a h => ⟨fun _ _ => rfl, jumpIf_effect h (taken := true) (cond := True) (by simp) a⟩

end Sys2Proof.Machine
end

section
/-! PROOF. CALL and EXIT (44_call_exit.md). -/

namespace Sys2Proof.Machine

/-! ### The name (decisions D14, D15) -/

theorem nameScan_eq_none_iff (s : State) {n : Nat} (hn : n ≤ 256) :
    nameScan s n = none ↔ ∀ j : Byte, 256 - n ≤ j.toNat → s.readReg j ≠ 0 := by
  induction n with
  | zero => exact iff_of_true rfl fun j hj => absurd j.isLt (by omega)
  | succ n ih =>
    have hcell := nameCell_toNat n
    simp only [nameScan]
    split
    · rename_i h0
      exact iff_of_false nofun fun h => h _ hcell.ge h0
    · rename_i hne
      rw [Option.map_eq_none_iff, ih (by omega)]
      refine ⟨fun h j hj => ?_, fun h j hj => h j (by omega)⟩
      by_cases hj' : 256 - n ≤ j.toNat
      · exact h j hj'
      · obtain rfl : j = BitVec.ofNat 8 (256 - (n + 1)) := BitVec.eq_of_toNat_eq (by omega)
        exact hne

/-- The registers from `start` on spell the name: non-zero ones, and then a 0. -/
def spellsName (s : State) (start : Nat) (name : List Byte) : Prop :=
  ∃ z : Byte, start + name.length = z.toNat ∧ s.readReg z = 0 ∧
    ∀ j : Byte, start ≤ j.toNat → j.toNat < z.toNat → s.readReg j ≠ 0 ∧ name[j.toNat - start]? = some (s.readReg j)

/-- At a 0 the name is empty. -/
theorem spellsName_of_zero {s : State} {c : Byte} (h : s.readReg c = 0) (name : List Byte) :
    spellsName s c.toNat name ↔ name = [] := by
  constructor
  · rintro ⟨z, hz, -, hname⟩
    by_contra hne
    have hpos := List.length_pos_of_ne_nil hne
    exact (hname c le_rfl (by omega)).1 h
  · rintro rfl
    exact ⟨c, rfl, h, fun j hlow hhigh => absurd hhigh (Nat.not_lt.mpr hlow)⟩

/-- At another register that is the first character, and the rest is spelt from the next register on. -/
theorem spellsName_of_ne_zero {s : State} {c : Byte} (h : s.readReg c ≠ 0) (name : List Byte) :
    spellsName s c.toNat name ↔ ∃ tail, name = s.readReg c :: tail ∧ spellsName s (c.toNat + 1) tail := by
  constructor
  · rintro ⟨z, hz, hz0, hname⟩
    cases name with
    | nil =>
      obtain rfl : c = z := BitVec.eq_of_toNat_eq hz
      exact absurd hz0 h
    | cons x tail =>
      rw [List.length_cons] at hz
      obtain ⟨-, hx⟩ := hname c le_rfl (by omega)
      rw [Nat.sub_self, List.getElem?_cons_zero, Option.some.injEq] at hx
      refine ⟨tail, by rw [hx], z, by omega, hz0, fun j hlow hhigh => ?_⟩
      obtain ⟨hne, hj⟩ := hname j (by omega) hhigh
      rw [show j.toNat - c.toNat = (j.toNat - (c.toNat + 1)) + 1 by omega, List.getElem?_cons_succ] at hj
      exact ⟨hne, hj⟩
  · rintro ⟨tail, rfl, z, hz, hz0, hname⟩
    refine ⟨z, by rw [List.length_cons]; omega, hz0, fun j hlow hhigh => ?_⟩
    by_cases hj : j = c
    · subst hj
      exact ⟨h, by rw [Nat.sub_self, List.getElem?_cons_zero]⟩
    · have hne : j.toNat ≠ c.toNat := fun e => hj (BitVec.eq_of_toNat_eq e)
      rw [show j.toNat - c.toNat = (j.toNat - (c.toNat + 1)) + 1 by omega, List.getElem?_cons_succ]
      exact hname j (by omega) hhigh

/-- The scan finds the name its registers spell. -/
theorem nameScan_eq_some_iff (s : State) {n : Nat} (hn : n ≤ 256) (name : List Byte) :
    nameScan s n = some name ↔ spellsName s (256 - n) name := by
  induction n generalizing name with
  | zero => exact iff_of_false nofun fun ⟨z, hz, _⟩ => absurd z.isLt (by omega)
  | succ n ih =>
    have hcell := nameCell_toNat n
    have hnext : (BitVec.ofNat 8 (256 - (n + 1))).toNat + 1 = 256 - n := by omega
    simp only [nameScan]
    generalize BitVec.ofNat 8 (256 - (n + 1)) = c at hcell hnext ⊢
    rw [← hcell]
    split
    · rename_i h0
      rw [spellsName_of_zero h0, Option.some.injEq, eq_comm]
    · rename_i hne
      rw [spellsName_of_ne_zero hne, hnext, Option.map_eq_some_iff]
      simp only [ih (by omega), eq_comm (b := name)]
      exact exists_congr fun _ => and_comm

/-- Settles O26: the scan from the start, which either addressing gives. -/
theorem callNameIsZeroTerminated : Obligations.CallNameIsZeroTerminated := by
  intro s b start hstart
  have hname : nameStart s b = start := by
    obtain ⟨ha, rfl⟩ | ⟨ha, rfl⟩ := hstart <;> simp only [nameStart, ha]
  have hbound : 256 - (256 - start.toNat) = start.toNat := by omega
  have hsome := nameScan_eq_some_iff s (Nat.sub_le 256 start.toNat)
  have hnone := nameScan_eq_none_iff s (Nat.sub_le 256 start.toNat)
  rw [hbound] at hsome hnone
  rw [callName, hname]
  exact ⟨hsome, hnone⟩

/-! ### CALL -/

theorem depthReached_eq_false_iff (s : State) :
    depthReached s = false ↔ ∀ d, s.config.maxCallDepth = some d → s.frames.length < d := by
  cases hd : s.config.maxCallDepth with
  | none => simp [depthReached, hd]
  | some d => simp [depthReached, hd]

theorem execCall_of_no_name {s : State} {f : Frame} {rest : List Frame} {b : Byte} (h : s.frames = f :: rest)
    (hname : callName s b = none) (a : Byte) : execCall a b s = raise (.unterminatedCallName f.pc b) s := by
  simp only [execCall, h, hname]

theorem execCall_of_depth {s : State} {f : Frame} {rest : List Frame} {b : Byte} {name : List Byte}
    (h : s.frames = f :: rest) (hname : callName s b = some name) (hdepth : depthReached s = true) (a : Byte) :
    execCall a b s = raise (.callDepthExceeded f.pc s.frames.length) s := by
  simp only [execCall, h, hname, hdepth, if_true]

theorem execCall_of_no_child {s : State} {f : Frame} {rest : List Frame} {b : Byte} {name : List Byte}
    (h : s.frames = f :: rest) (hname : callName s b = some name) (hdepth : depthReached s = false)
    (hload : (load s name).bind streamOf = none) (a : Byte) :
    execCall a b s = raise (.childExecutionError f.pc name) s := by
  simp [execCall, h, hname, hdepth, hload]

theorem execCall_of_child {s : State} {f : Frame} {rest : List Frame} {b : Byte} {name code : List Byte}
    (h : s.frames = f :: rest) (hname : callName s b = some name) (hdepth : depthReached s = false)
    (hload : (load s name).bind streamOf = some code) (a : Byte) : execCall a b s = .next (pushContext code a s) := by
  simp [execCall, h, hname, hdepth, hload]

/-- Settles O27. -/
theorem callPushesChild : Obligations.CallPushesChild := by
  intro s f rest a b name code h hname hdepth hload
  have hchild : (load s name).bind streamOf = some code := by
    rw [hload]
    exact streamOf_header code
  refine ⟨fun _ => rfl, pushContext code a s,
    execCall_of_child h hname ((depthReached_eq_false_iff s).mpr hdepth) hchild a,
    fun r _ => readReg_pushContext s code a r, ?_, rfl, rfl, rfl, rfl, rfl⟩
  rw [pushContext_frames, h]

/-- Settles O28: in the order of the checks. -/
theorem callFaultsInOrder : Obligations.CallFaultsInOrder := by
  intro s f rest a b h
  refine ⟨fun hname => execCall_of_no_name h hname a, fun name d hname hd hlimit => ?_, fun name hname hdepth hfile => ?_⟩
  · exact execCall_of_depth h hname (by simpa [depthReached, hd] using hlimit) a
  · refine execCall_of_no_child h hname ((depthReached_eq_false_iff s).mpr hdepth) ?_ a
    rw [Option.bind_eq_none_iff]
    intro file hload
    exact if_neg fun hvalid => hfile file hload (beq_iff_eq.mp hvalid)

/-! ### The end of a context -/

/-- Ending the root changes the status alone. -/
theorem endContext_root_effect {s : State} {f : Frame} (h : s.frames = [f]) (code : Byte) :
    ∃ t, endContext code s = .next t ∧ t.status = .halted code ∧
      EffectIs noReg [f] s.out s.input (.halted code) s t :=
  ⟨_, endContext_root h code, rfl, fun _ _ => rfl, h, rfl, rfl, rfl, rfl, rfl⟩

/-- Ending a subordinate pops it, writes its status and moves the caller past its CALL. -/
theorem endContext_subordinate_effect {s : State} {child caller : Frame} {rest : List Frame} {dest : Byte}
    (h : s.frames = child :: caller :: rest) (hd : child.dest = some dest) (code : Byte) :
    ∃ t, endContext code s = .next t ∧ t.readReg dest = code ∧
      EffectIs (· = dest) ({ caller with pc := caller.pc + 4 } :: rest) s.out s.input s.status s t :=
  ⟨_, endContext_subordinate h hd code, readReg_writeReg_same _ dest code,
    fun _ hr => readReg_writeReg_other _ code hr, rfl, rfl, rfl, rfl, rfl, rfl⟩

/-- Settles O29. -/
theorem exitEndsContext : Obligations.ExitEndsContext := by
  intro s a
  refine ⟨fun _ _ => rfl, fun f hf => ?_, fun child caller rest d hf hd => endContext_subordinate_effect hf hd (s.readReg a)⟩
  obtain ⟨t, ht, hstatus, heffect⟩ := endContext_root_effect hf (s.readReg a)
  exact ⟨t, ht, by rw [hstatus]; rfl, heffect⟩

end Sys2Proof.Machine
end

section
/-! PROOF. The cycle: the termination check, the fetch, the dispatch (40_cycle.md), and the steps that repeat. -/

namespace Sys2Proof.Machine

/-! ### The fetch -/

/-- A word that decodes to an instruction lies inside the stream. -/
theorem pc_lt_of_decode_instr {f : Frame} {i : Instr} (h : decode (fetch f) = .instr i) : f.pc < f.code.length := by
  have hlen : ¬ (fetch f).length < 4 := fun hlt => nomatch h.symm.trans ((decode_truncated_iff _).mpr hlt)
  simp only [fetch, memRead, List.length_take, List.length_drop] at hlen
  omega

/-- Four stream bytes at the program counter are the word that is fetched. -/
theorem fetch_of_append {f : Frame} {pre post : List Byte} {op a b c : Byte} (hcode : f.code = pre ++ op :: a :: b :: c :: post)
    (hpc : pre.length = f.pc) : fetch f = [op, a, b, c] := by
  rw [fetch, memRead, hcode, List.drop_left' hpc]
  rfl

theorem step_of_decode {s : State} {f : Frame} {rest : List Frame} {i : Instr} (hr : s.status = .running)
    (hf : s.frames = f :: rest) (hd : decode (fetch f) = .instr i) : step s = exec i s := by
  rw [step_cases hr hf, if_neg (Nat.not_le.mpr (pc_lt_of_decode_instr hd)), hd, runDecoded]

theorem step_of_append {s : State} {f : Frame} {rest : List Frame} {pre post : List Byte} {op a b c : Byte}
    (hr : s.status = .running) (hf : s.frames = f :: rest) (hcode : f.code = pre ++ op :: a :: b :: c :: post)
    (hpc : pre.length = f.pc) : step s = runDecoded f.pc (decode [op, a, b, c]) s := by
  have hin : ¬ f.code.length ≤ f.pc := by
    simp only [hcode, List.length_append, List.length_cons]
    omega
  rw [step_cases hr hf, if_neg hin, fetch_of_append hcode hpc]

/-- Settles O30. -/
theorem stepRunsDecodedInstruction : Obligations.StepRunsDecodedInstruction := by
  intro s f rest pre post op a b c i hr hf hcode hpc hd
  rw [step_of_append hr hf hcode hpc, hd, runDecoded]

/-- Settles O31. -/
theorem stepPastStreamEndsContext : Obligations.StepPastStreamEndsContext := by
  intro s f rest hr hf hend
  have hstep : step s = endContext 0 s := by rw [step_cases hr hf, if_pos hend]
  rw [hstep]
  refine ⟨?_, ?_⟩
  · rintro rfl
    obtain ⟨t, ht, -, heffect⟩ := endContext_root_effect hf 0
    exact ⟨t, ht, heffect⟩
  · rintro caller under d rfl hd
    exact hr ▸ endContext_subordinate_effect hf hd 0

/-- Settles O32: fewer than four bytes are left, and the decoder answers so. -/
theorem stepOnPartialWordFaults : Obligations.StepOnPartialWordFaults := by
  intro s f rest hr hf hin hpartial
  have hd : decode (fetch f) = .truncated := by
    rw [decode_truncated_iff, fetch, memRead, List.length_take, List.length_drop]
    omega
  rw [step_cases hr hf, if_neg (Nat.not_le.mpr hin), hd, runDecoded, raise]

/-- Settles O33. -/
theorem stepOnIllegalWordFaults : Obligations.StepOnIllegalWordFaults := by
  intro s f rest pre post op a b c hr hf hcode hpc
  rw [step_of_append hr hf hcode hpc]
  refine ⟨fun hop => ?_, ?_⟩
  · rw [decode_word, decodeWord_of_notMem hop, runDecoded, raise]
  · rintro rfl hn hs
    rw [readModeSelectsForm a b c, if_neg hn, if_neg hs, runDecoded, raise]

/-! ### Steps that repeat -/

/-- A state that steps to itself is all that any number of steps reaches. -/
theorem stepsTo_of_fixed {s : State} (h : step s = .next s) (n : Nat) (t : State) : stepsTo n s t ↔ t = s := by
  induction n with
  | zero => exact Iff.rfl
  | succ n ih =>
    constructor
    · rintro ⟨u, hu, hsteps⟩
      cases h.symm.trans hu
      exact ih.mp hsteps
    · exact fun ht => ⟨s, h, ih.mpr ht⟩

/-- A jump that is taken to its own index leaves the state. -/
theorem jumpIf_self {s : State} {f : Frame} {rest : List Frame} {taken : Bool} {target : Byte} (h : s.frames = f :: rest)
    (htaken : taken = true) (hpc : f.pc = target.toNat * 4) : jumpIf taken target s = .next s := by
  have hframe : { f with pc := targetOffset target } = f := by rw [targetOffset, ← hpc]
  rw [jumpIf_cons h, htaken, if_pos rfl, hframe, ← h]

/-- Settles O25. -/
theorem selfJumpLoopsForEver : Obligations.SelfJumpLoopsForEver := by
  intro s f rest a hr hf hpc hjump
  refine stepsTo_of_fixed ?_
  obtain hd | ⟨b, c, hd, heq⟩ | ⟨b, c, hd, hgt⟩ := hjump
  · rw [step_of_decode hr hf hd]
    exact jumpIf_self hf rfl hpc
  · rw [step_of_decode hr hf hd]
    exact jumpIf_self hf ((aluEq_iff _ _).mpr heq) hpc
  · rw [step_of_decode hr hf hd]
    exact jumpIf_self hf ((aluGtu_iff _ _).mpr hgt) hpc

/-- A READ that IN does not answer leaves the state. -/
theorem step_hold {s : State} {f : Frame} {rest : List Frame} {a c : Byte} (hr : s.status = .running)
    (hf : s.frames = f :: rest) (hin : inLine s = none)
    (hread : decode (fetch f) = .instr (.readN a) ∨ (decode (fetch f) = .instr (.readS a c) ∧ a.toNat + c.toNat ≤ 256)) :
    step s = .next s := by
  obtain hd | ⟨hd, hrange⟩ := hread
  · exact (step_of_decode hr hf hd).trans (execReadN_hold hin a)
  · exact (step_of_decode hr hf hd).trans (execReadS_hold hf hrange hin)

/-- Settles O16. -/
theorem readHoldsForEver : Obligations.ReadHoldsForEver := by
  intro s f rest a c hr hf hlines hended hread
  exact stepsTo_of_fixed (step_hold hr hf (inLine_hold hlines hended) hread)

end Sys2Proof.Machine
end

section
/-! PROOF. The step, and a run, as functions of the block and the host's answers (10_state.md R34, 40_cycle.md R107, R108). -/

namespace Sys2Proof.Machine

/-! ### The block and its answers -/

/-- An action does the same to the block whatever stands beside it. -/
theorem blockOf_perform_congr {s s' : State} (h : s'.toBlock = s.toBlock) (a : Action) :
    blockOf (a.perform s') = blockOf (a.perform s) := by
  obtain ⟨⟨regs, frames, out, status⟩, env⟩ := s
  obtain ⟨block, env'⟩ := s'
  subst h
  cases a with
  | stuck | fault | hold | call => rfl
  | move takes ws cs target =>
    cases frames with
    | nil => cases target <;> rfl
    | cons f rest => cases target <;> rfl
  | finish code =>
    match frames with
    | [] => rfl
    | [f] => rfl
    | child :: caller :: rest =>
      cases hd : child.dest <;> simp [Action.perform, endContext, hd, blockOf, State.writeReg]

/-- A CALL below the depth limit asks LOADER for its name. -/
theorem loadRequest_of_call {s : State} {f : Frame} {rest : List Frame} {dest nameBase : Byte} (hf : s.frames = f :: rest)
    (hd : decode (fetch f) = .instr (.call dest nameBase)) (hdepth : depthReached s = false) :
    loadRequest s = callName s nameBase := by
  simp [loadRequest, hf, hd, hdepth]

/-- What LOADER is asked for is settled by the block and the parameters. -/
theorem loadRequest_congr {s s' : State} (hblock : s'.toBlock = s.toBlock) (hconfig : s'.config = s.config) :
    loadRequest s' = loadRequest s := by
  have hname : callName s' = callName s := funext fun b =>
    callName_congr (dest := b) hconfig fun r _ => readReg_congr (congrArg Block.regs hblock) r
  have hreached : depthReached s' = depthReached s := by simp only [depthReached, hblock, hconfig]
  simp only [loadRequest, hname, hreached, hblock]

theorem withInputs_loader (s : State) (inputs : StepInputs) :
    (s.toBlock.withInputs s.config inputs).loader = answeringFiles (loadRequest s) inputs.loadAnswer :=
  congrArg (answeringFiles · inputs.loadAnswer) (loadRequest_congr rfl rfl)

/-- Beside an environment made of the answers an instruction sees what it saw beside the state's own. -/
theorem seesSame_withInputs {s : State} {f : Frame} {rest : List Frame} {i : Instr} (hf : s.frames = f :: rest)
    (hd : decode (fetch f) = .instr i) : SeesSame i s (s.toBlock.withInputs s.config s.inputs) where
  config := rfl
  active := rfl
  depth := rfl
  answer := inLine_withInputs _ _ _
  regs _ _ := rfl
  files dest nameBase name hi hdepth hname := by
    subst hi
    have hrequest : loadRequest s = some name := (loadRequest_of_call hf hd hdepth).trans hname
    have hanswer : s.inputs.loadAnswer = load s name := by simp only [State.inputs, hrequest, Option.bind_some]
    have hloader := withInputs_loader s s.inputs
    rw [hrequest] at hloader
    exact (load_answeringFiles hloader).trans hanswer

theorem step_of_no_frame {s : State} (hr : s.status = .running) (hf : s.frames = []) : step s = .fault .noActiveContext := by
  simp only [step_of_running hr, cycle, hf]

/-- A step of the state is a step of its block, with the answers its environment gives. -/
theorem blockOf_step (s : State) : blockOf (step s) = Block.step s.config s.inputs s.toBlock := by
  unfold Block.step
  by_cases hr : s.status = .running
  · cases hf : s.frames with
    | nil =>
      rw [step_of_no_frame hr hf, step_of_no_frame (s := s.toBlock.withInputs s.config s.inputs) hr hf]
    | cons f rest =>
      rw [step_eq_perform hr hf, step_eq_perform (s := s.toBlock.withInputs s.config s.inputs) hr hf,
        nextAction_congr fun i hd => seesSame_withInputs hf hd]
      exact (blockOf_perform_congr (withInputs_toBlock s.toBlock s.config s.inputs) _).symm
  · obtain ⟨code, hcode⟩ : ∃ code, s.status.exitStatus = some code := by
      cases hs : s.status with
      | running => exact absurd hs hr
      | halted code => exact ⟨code, rfl⟩
      | faulted record => exact ⟨1, rfl⟩
    rw [step_of_ended hcode, step_of_ended (s := s.toBlock.withInputs s.config s.inputs) hcode]

theorem inPort_ext {p q : InPort} (hlines : p.lines = q.lines) (hended : p.ended = q.ended) : p = q := by
  cases p
  exact congr (congrArg InPort.mk hlines) hended

/-- A line that a step takes is the one IN answered. -/
theorem step_input {s t : State} (h : step s = .next t) :
    t.input = s.input ∨
      ∃ l, s.inputs.inAnswer = some (.line l) ∧ s.input = { t.input with lines := l :: t.input.lines } := by
  obtain ⟨-, hended, hlines | ⟨l, hl⟩⟩ := outputGrowsAndInputShrinks s t h
  · exact .inl (inPort_ext hlines hended)
  · exact .inr ⟨l, by simp only [State.inputs, inLine_line hl, Option.map_some], inPort_ext hl hended.symm⟩

/-- Settles O59: a step is the block's, and so is a run, step by step. -/
theorem stepIsBlockStep : Obligations.StepIsBlockStep := by
  refine ⟨fun s => ⟨blockOf_step s, fun t h => ?_⟩, fun config states hconfig hrun hend n => ?_⟩
  · obtain ⟨hc, hl⟩ := stepKeepsParameters s t h
    exact ⟨hc, hl, step_input h⟩
  · induction n with
    | zero => rfl
    | succ n ih =>
      by_cases hr : (states n).status = .running
      · obtain ⟨t, ht, hnext⟩ := hrun n hr
        rw [run_succ_of_running ih hr, ← hconfig n, ← blockOf_step, ht, hnext]
        rfl
      · rw [run_succ_of_ended ih hr, hend n hr]

/-! ### A late answer (42_io.md R148) -/

/-- A run in which IN does not answer holds at a READ. -/
theorem run_hold {config : Config} {answers : Nat → StepInputs} {b : Block} (hr : b.status = .running) {n : Nat}
    (hhold : ∀ k, k < n → b.step config (answers k) = .next b) : Block.run config answers n b = .next b := by
  induction n with
  | zero => rfl
  | succ n ih =>
    rw [run_succ_of_running (ih fun k hk => hhold k (Nat.lt_succ_of_lt hk)) hr]
    exact hhold n (Nat.lt_succ_self n)

theorem inLine_withInputs_none {b : Block} {config : Config} {inputs : StepInputs} (h : inputs.inAnswer = none) :
    inLine (b.withInputs config inputs) = none :=
  Option.map_eq_none_iff.mp ((inLine_withInputs b config inputs).trans h)

theorem inLine_withInputs_some {b : Block} {config : Config} {inputs : StepInputs} {ans : InAnswer}
    (h : inputs.inAnswer = some ans) : ∃ s', inLine (b.withInputs config inputs) = some (ans, s') := by
  obtain ⟨⟨ans', s'⟩, hin, rfl⟩ := Option.map_eq_some_iff.mp ((inLine_withInputs b config inputs).trans h)
  exact ⟨s', hin⟩

theorem inLine_frames {s s' : State} {ans : InAnswer} (h : inLine s = some (ans, s')) : s'.frames = s.frames := by
  obtain ⟨l, ls, -, -, rfl⟩ | ⟨-, -, -, rfl⟩ := inLine_some h
  · rfl
  · rfl

/-- With an answer of IN both READ forms complete and leave the port without it. -/
theorem exec_read_answered {s s' : State} {f : Frame} {rest : List Frame} {a c : Byte} {ans : InAnswer} {i : Instr}
    (hf : s.frames = f :: rest) (hrange : a.toNat + c.toNat ≤ 256) (hin : inLine s = some (ans, s'))
    (hi : i = .readN a ∨ i = .readS a c) :
    ∃ t, exec i s = .next t ∧ t.frames = { f with pc := f.pc + 4 } :: rest ∧ t.input = s'.input := by
  have hf' := (inLine_frames hin).trans hf
  obtain rfl | rfl := hi
  · exact ⟨_, (execReadN_of_answer hin a).trans (advance_cons (s := s'.writeReg a (readNValue ans)) hf'), rfl, rfl⟩
  · exact ⟨_, (execReadS_of_answer hf hrange hin).trans (advance_cons ((writeRange_frames s' a _ _).trans hf')), rfl,
      writeRange_input s' a _ _⟩

/-- Settles O17: at a READ a step without an answer leaves the block, and one with an answer completes. -/
theorem suppliedLineLiftsHold : Obligations.SuppliedLineLiftsHold := by
  intro s f rest a c l hf hlines hrange
  have hsupplied : inLine (s.supplyLine l) = some (.line l, { s.supplyLine l with input := { s.input with lines := [] } }) :=
    inLine_line (s := s.supplyLine l) (by rw [State.supplyLine, hlines]; rfl)
  have hsupply : ∀ i, i = .readN a ∨ i = .readS a c → ∃ t, exec i (s.supplyLine l) = .next t ∧
      t.frames = { f with pc := f.pc + 4 } :: rest ∧ t.input.lines = [] := fun i hi => by
    obtain ⟨t, ht, hframes, hinput⟩ := exec_read_answered (s := s.supplyLine l) hf hrange hsupplied hi
    exact ⟨t, ht, hframes, congrArg InPort.lines hinput⟩
  refine ⟨hsupply _ (.inl rfl), hsupply _ (.inr rfl), fun hr hread config answers n ans hnone hans => ?_⟩
  have hrun : Block.run config answers n s.toBlock = .next s.toBlock := run_hold hr fun k hk => by
    have hstep := step_hold (s := s.toBlock.withInputs config (answers k)) (a := a) (c := c) hr hf
      (inLine_withInputs_none (hnone k hk)) (hread.imp_right fun hd => ⟨hd, hrange⟩)
    rw [Block.step, hstep]
    rfl
  obtain ⟨s', hin⟩ := inLine_withInputs_some (b := s.toBlock) (config := config) hans
  obtain ⟨i, hd, hi⟩ : ∃ i, decode (fetch f) = .instr i ∧ (i = .readN a ∨ i = .readS a c) := by
    obtain hd | hd := hread
    · exact ⟨_, hd, .inl rfl⟩
    · exact ⟨_, hd, .inr rfl⟩
  obtain ⟨t, ht, hframes, -⟩ := exec_read_answered (s := s.toBlock.withInputs config (answers n)) hf hrange hin hi
  have hstep : Block.step config (answers n) s.toBlock = .next t.toBlock := by
    rw [Block.step, step_of_decode (s := s.toBlock.withInputs config (answers n)) hr hf hd, ht]
    rfl
  exact ⟨hrun, t.toBlock, (run_succ_of_running hrun hr).trans hstep, hstep, hframes⟩

end Sys2Proof.Machine
end

section
/-! PROOF. Numbers in text: what is printed (42_io.md R151, R152) and what is read (42_io.md R141, 30_encoding.md R82, R83). -/

namespace Sys2Proof.Machine

/-! ### Minimal digits -/

/-- The digits of a number, most significant first, without a leading 0. -/
def IsMinimalDigits (radix v : Nat) (ds : List Nat) : Prop :=
  (∀ d ∈ ds, d < radix) ∧ ds.foldl (fun acc d => acc * radix + d) 0 = v ∧ ds ≠ [] ∧ (ds.head? = some 0 → ds = [0])

theorem radixDigits_minimal {radix : Nat} (hradix : 2 ≤ radix) {fuel v : Nat} (hv : v < fuel) :
    IsMinimalDigits radix v (radixDigits radix fuel v) := by
  induction fuel generalizing v with
  | zero => exact absurd hv (Nat.not_lt_zero v)
  | succ fuel ih =>
    rw [radixDigits]
    split
    · rename_i hlt
      refine ⟨fun d hd => ?_, by simp, List.cons_ne_nil v [], fun h => ?_⟩
      · rw [List.mem_singleton.mp hd]
        exact hlt
      · rw [Option.some.inj h]
    · rename_i hge
      have hdiv : v / radix < v := Nat.div_lt_self (by omega) hradix
      obtain ⟨hlt, hval, hne, hzero⟩ := ih (v := v / radix) (by omega)
      refine ⟨fun d hd => ?_, ?_, List.append_ne_nil_of_left_ne_nil hne _, fun h => ?_⟩
      · obtain hd | hd := List.mem_append.mp hd
        · exact hlt d hd
        · rw [List.mem_singleton.mp hd]
          exact Nat.mod_lt v (by omega)
      · rw [List.foldl_append, hval, List.foldl_cons, List.foldl_nil, Nat.div_add_mod']
      · rw [List.head?_append_of_ne_nil _ hne] at h
        rw [hzero h] at hval
        have hpos : 0 < v / radix := Nat.div_pos (Nat.not_lt.mp hge) (by omega)
        simp at hval
        omega

theorem minimalDigits_minimal {radix : Nat} (hradix : 2 ≤ radix) (v : Nat) :
    IsMinimalDigits radix v (minimalDigits radix v) :=
  radixDigits_minimal hradix (Nat.lt_succ_self v)

/-! ### PUT_RENDER -/

theorem numberFormat_radix (b : Byte) :
    (numberFormat b).radix = if b = 0x78 ∨ b = 0x58 then 16 else if b = 0x62 then 2 else 10 := by
  unfold numberFormat
  split_ifs <;> simp_all [NumberFormat.radix]

theorem numberFormat_radix_ge_two (b : Byte) : 2 ≤ (numberFormat b).radix := by
  cases numberFormat b <;> decide

theorem numberFormat_upper (b : Byte) : (numberFormat b).upper = true ↔ b = 0x58 := by
  unfold numberFormat
  split_ifs <;> simp_all [NumberFormat.upper]

/-- The default text is made of the characters of the minimal digits. -/
theorem defaultRender_eq (b v : Byte) :
    defaultRender b v = (minimalDigits (numberFormat b).radix v.toNat).map
      (fun d => BitVec.ofNat 8 (if d < 10 then 0x30 + d else (if b = 0x58 then 0x41 else 0x61) + (d - 10))) := by
  simp only [defaultRender, digitCode, numberFormat_upper]

theorem defaultRender_digits_minimal (b v : Byte) :
    IsMinimalDigits (if b = 0x78 ∨ b = 0x58 then 16 else if b = 0x62 then 2 else 10) v.toNat
      (minimalDigits (numberFormat b).radix v.toNat) :=
  numberFormat_radix b ▸ minimalDigits_minimal (numberFormat_radix_ge_two b) v.toNat

theorem putRender_of_empty {config : Config} (h : config.putRender = []) (b v : Byte) :
    putRender config b v = defaultRender b v := by
  simp [putRender, h]

/-- Settles O19. -/
theorem defaultRenderingIsMinimalDigits : Obligations.DefaultRenderingIsMinimalDigits := fun _ b v hconfig =>
  ⟨_, (putRender_of_empty hconfig b v).trans (defaultRender_eq b v), defaultRender_digits_minimal b v⟩

/-- Settles O58: whatever the places, the default text stands in them. -/
theorem renderingKeepsRadixAndCase : Obligations.RenderingKeepsRadixAndCase := by
  rintro config b v radix rfl
  refine ⟨_, ?_, defaultRender_digits_minimal b v⟩
  rw [← defaultRender_eq]
  obtain h | ⟨r, -, -, -, h⟩ := putRender_cases config b v
  · rw [h]
  · rw [h]
    exact digits_sublist_fillPlaces r.places _

/-- Every byte. -/
def allBytes : List Byte := (List.range 256).map (BitVec.ofNat 8)

theorem mem_allBytes (b : Byte) : b ∈ allBytes :=
  List.mem_map.mpr ⟨b.toNat, List.mem_range.mpr b.isLt, by simp⟩

/-- The table with an entry for every format code and every value. -/
def fullTable (places : Byte → Byte → List RenderPlace) : List Rendering :=
  allBytes.flatMap fun b => allBytes.map fun v => { fmt := b, value := v, places := places b v }

theorem mem_fullTable_iff (places : Byte → Byte → List RenderPlace) (r : Rendering) :
    r ∈ fullTable places ↔ r.places = places r.fmt r.value := by
  simp only [fullTable, List.mem_flatMap, List.mem_map]
  constructor
  · rintro ⟨b, -, v, -, rfl⟩
    rfl
  · exact fun h => ⟨r.fmt, mem_allBytes _, r.value, mem_allBytes _, by rw [← h]⟩

theorem putRender_fullTable {config : Config} {places : Byte → Byte → List RenderPlace}
    (h : config.putRender = fullTable places) (b v : Byte) :
    putRender config b v = fillPlaces (places b v) (defaultRender b v) := by
  unfold putRender
  rw [h]
  split
  · rename_i r hr
    have hplaces := (mem_fullTable_iff places r).mp (List.mem_of_find?_eq_some hr)
    have hkey := List.find?_some hr
    simp only [Bool.and_eq_true, beq_iff_eq] at hkey
    rw [hplaces, hkey.1, hkey.2]
  · rename_i hnone
    have hmem : { fmt := b, value := v, places := places b v } ∈ fullTable places := (mem_fullTable_iff places _).mpr rfl
    exact absurd (List.find?_eq_none.mp hnone _ hmem) (by simp)

/-- Settles O20: every text has places for its digits, and the full table holds them. -/
theorem everyRenderingIsConfigurable : Obligations.EveryRenderingIsConfigurable := by
  intro g config hg
  choose places hplaces using fun b v => exists_fillPlaces (hg b v)
  refine ⟨{ config with putRender := fullTable places }, rfl, rfl, fun b v => ?_⟩
  exact (putRender_fullTable rfl b v).trans (hplaces b v)

/-! ### Digits read -/

theorem digitsValue_eq_some_iff {base : Nat} (hb : base ≤ 16) {acc : Nat} {cs : List Nat} {n : Nat} :
    digitsValue base acc cs = some n ↔
      ∃ ds, List.Forall₂ (isDigitOf base) cs ds ∧ n = ds.foldl (fun v d => v * base + d) acc := by
  induction cs generalizing acc with
  | nil => simp [digitsValue, eq_comm]
  | cons c cs ih =>
    rw [digitsValue]
    cases hd : digitIn base c with
    | none =>
      refine iff_of_false nofun ?_
      rintro ⟨_, hds, -⟩
      cases hds with
      | cons hc _ => exact (digitIn_eq_none_iff hb c).mp hd _ hc
    | some d =>
      have hc := (digitIn_eq_some_iff hb c d).mp hd
      simp only [ih]
      constructor
      · rintro ⟨ds, hds, rfl⟩
        exact ⟨d :: ds, .cons hc hds, rfl⟩
      · rintro ⟨_, hds, rfl⟩
        cases hds with
        | cons hc' hds =>
          obtain rfl := Option.some.inj (hd.symm.trans ((digitIn_eq_some_iff hb c _).mpr hc'))
          exact ⟨_, hds, rfl⟩

theorem parseDigits_eq_some_iff {base : Nat} (hb : base ≤ 16) {cs : List Nat} {n : Nat} :
    parseDigits base cs = some n ↔
      ∃ ds, ds ≠ [] ∧ List.Forall₂ (isDigitOf base) cs ds ∧ n = ds.foldl (fun v d => v * base + d) 0 := by
  cases cs with
  | nil =>
    refine iff_of_false nofun ?_
    rintro ⟨ds, hne, hds, -⟩
    exact hne (List.forall₂_nil_left_iff.mp hds)
  | cons c cs =>
    rw [parseDigits, digitsValue_eq_some_iff hb]
    refine exists_congr fun ds => (and_iff_right_of_imp ?_).symm
    rintro ⟨hds, -⟩ rfl
    cases hds

/-- A decimal digit is neither sign. -/
theorem ne_sign_of_isDigitOf {c d : Nat} (h : isDigitOf 10 c d) : c ≠ 0x2D ∧ c ≠ 0x2B := by
  unfold isDigitOf at h
  omega

/-- A signed decimal number: an optional sign and one or more digits, and nothing else. -/
theorem parseSigned_eq_some_iff {l : List Nat} {n : Int} :
    parseSigned l = some n ↔
      ∃ sign cs ds : List Nat, l = sign ++ cs ∧ sign ∈ [[], [0x2B], [0x2D]] ∧ ds ≠ [] ∧
        List.Forall₂ (isDigitOf 10) cs ds ∧
        n = (if sign = [0x2D] then -1 else 1) * ((ds.foldl (fun v d => v * 10 + d) 0 : Nat) : Int) := by
  have hb : 10 ≤ 16 := by decide
  constructor
  · intro h
    cases l with
    | nil => cases h
    | cons c cs =>
      simp only [parseSigned] at h
      split_ifs at h with hminus hplus
      · obtain ⟨m, hm, rfl⟩ := Option.map_eq_some_iff.mp h
        obtain ⟨ds, hne, hds, rfl⟩ := (parseDigits_eq_some_iff hb).mp hm
        exact ⟨[0x2D], cs, ds, by rw [hminus]; rfl, by simp, hne, hds, by simp⟩
      · obtain ⟨m, hm, rfl⟩ := Option.map_eq_some_iff.mp h
        obtain ⟨ds, hne, hds, rfl⟩ := (parseDigits_eq_some_iff hb).mp hm
        exact ⟨[0x2B], cs, ds, by rw [hplus]; rfl, by simp, hne, hds, by simp⟩
      · obtain ⟨m, hm, rfl⟩ := Option.map_eq_some_iff.mp h
        obtain ⟨ds, hne, hds, rfl⟩ := (parseDigits_eq_some_iff hb).mp hm
        exact ⟨[], c :: cs, ds, rfl, by simp, hne, hds, by simp⟩
  · rintro ⟨sign, cs, ds, rfl, hsign, hne, hds, rfl⟩
    have hparse := (parseDigits_eq_some_iff hb).mpr ⟨ds, hne, hds, rfl⟩
    simp only [List.mem_cons, List.not_mem_nil, or_false] at hsign
    obtain rfl | rfl | rfl := hsign
    · cases hds with
      | nil => exact absurd rfl hne
      | cons hc _ =>
        obtain ⟨hminus, hplus⟩ := ne_sign_of_isDigitOf hc
        simp [parseSigned, hminus, hplus, hparse]
    · simp [parseSigned, hparse]
    · simp [parseSigned, hparse]

/-! ### Trimming -/

theorem isSpaceCode_iff (c : Nat) : isSpaceCode c = true ↔ c ∈ [0x09, 0x0A, 0x0B, 0x0C, 0x0D, 0x20] := by
  simp only [isSpaceCode, Bool.or_eq_true, Bool.and_eq_true, decide_eq_true_eq, beq_iff_eq, List.mem_cons,
    List.not_mem_nil, or_false]
  omega

/-- What is dropped at either end is whitespace. -/
theorem exists_trimCodes (l : List Nat) :
    ∃ pre post, l = pre ++ trimCodes l ++ post ∧ ∀ c ∈ pre ++ post, isSpaceCode c = true := by
  refine ⟨l.takeWhile isSpaceCode, ((l.dropWhile isSpaceCode).reverse.takeWhile isSpaceCode).reverse, ?_, fun c hc => ?_⟩
  · rw [trimCodes, List.append_assoc, ← List.reverse_append, List.takeWhile_append_dropWhile, List.reverse_reverse,
      List.takeWhile_append_dropWhile]
  · obtain hc | hc := List.mem_append.mp hc
    · exact List.mem_takeWhile_imp hc
    · exact List.mem_takeWhile_imp (List.mem_reverse.mp hc)

theorem dropWhile_isSpaceCode {pre m : List Nat} (hpre : ∀ c ∈ pre, isSpaceCode c = true)
    (hm : ∀ c, m.head? = some c → isSpaceCode c = false) : (pre ++ m).dropWhile isSpaceCode = m := by
  rw [List.dropWhile_append_of_pos hpre]
  cases m with
  | nil => rfl
  | cons c m => exact List.dropWhile_cons_of_neg (by simp [hm c rfl])

/-- Trimming takes the whitespace around a text that neither begins nor ends with any. -/
theorem trimCodes_append {pre m post : List Nat} (hspace : ∀ c ∈ pre ++ post, isSpaceCode c = true) (hne : m ≠ [])
    (hhead : ∀ c, m.head? = some c → isSpaceCode c = false) (hlast : ∀ c, m.getLast? = some c → isSpaceCode c = false) :
    trimCodes (pre ++ m ++ post) = m := by
  obtain ⟨hpre, hpost⟩ := List.forall_mem_append.mp hspace
  have hhead' : ∀ c, (m ++ post).head? = some c → isSpaceCode c = false := by
    rw [List.head?_append_of_ne_nil _ hne]
    exact hhead
  have hlast' : ∀ c, m.reverse.head? = some c → isSpaceCode c = false := by
    rw [List.head?_reverse]
    exact hlast
  rw [trimCodes, List.append_assoc, dropWhile_isSpaceCode hpre hhead', List.reverse_append,
    dropWhile_isSpaceCode (fun c hc => hpost c (List.mem_reverse.mp hc)) hlast', List.reverse_reverse]

/-! ### The decimal line (decision D8) -/

theorem isDigitOf_ten_iff (c d : Nat) : isDigitOf 10 c d ↔ (0x30 ≤ c ∧ c ≤ 0x39) ∧ c - 0x30 = d := by
  unfold isDigitOf
  omega

/-- Decimal digits are the ten digit characters, each with its distance from `0`. -/
theorem forall₂_isDigitOf_ten_iff (cs ds : List Nat) :
    List.Forall₂ (isDigitOf 10) cs ds ↔ (∀ c ∈ cs, 0x30 ≤ c ∧ c ≤ 0x39) ∧ cs.map (· - 0x30) = ds := by
  have hdigit : isDigitOf 10 = fun c d => (0x30 ≤ c ∧ c ≤ 0x39) ∧ c - 0x30 = d :=
    funext₂ fun c d => propext (isDigitOf_ten_iff c d)
  rw [hdigit, List.forall₂_and_left, ← List.forall₂_map_left_iff (R := Eq) (f := (· - 0x30)), List.forall₂_eq_eq_eq]

theorem not_isSpaceCode_of_digit {c : Nat} (h : 0x30 ≤ c ∧ c ≤ 0x39) : isSpaceCode c = false := by
  rw [← Bool.not_eq_true, isSpaceCode_iff]
  simp only [List.mem_cons, List.not_mem_nil, or_false]
  omega

/-- A sign and digits neither begin nor end with whitespace. -/
theorem trimCodes_number {pre sign cs post : List Nat} (hspace : ∀ c ∈ pre ++ post, isSpaceCode c = true)
    (hsign : sign ∈ [[], [0x2B], [0x2D]]) (hne : cs ≠ []) (hcs : ∀ c ∈ cs, 0x30 ≤ c ∧ c ≤ 0x39) :
    trimCodes (pre ++ (sign ++ cs) ++ post) = sign ++ cs := by
  refine trimCodes_append hspace (List.append_ne_nil_of_right_ne_nil _ hne) (fun c hc => ?_) (fun c hc => ?_)
  · simp only [List.mem_cons, List.not_mem_nil, or_false] at hsign
    obtain rfl | rfl | rfl := hsign
    · exact not_isSpaceCode_of_digit (hcs c (List.mem_of_head? hc))
    · cases hc; rfl
    · cases hc; rfl
  · rw [List.getLast?_append_of_ne_nil _ hne] at hc
    exact not_isSpaceCode_of_digit (hcs c (List.mem_of_getLast? hc))

/-- Settles O13: the trimmed line is a sign and digits, and so is what trimming leaves of one. -/
theorem parseDecReadsSignedDecimal : Obligations.ParseDecReadsSignedDecimal := by
  intro l n
  simp only [← isSpaceCode_iff]
  rw [parseDec, parseSigned_eq_some_iff]
  constructor
  · rintro ⟨sign, cs, ds, hl, hsign, hne, hds, rfl⟩
    obtain ⟨hcs, rfl⟩ := (forall₂_isDigitOf_ten_iff cs ds).mp hds
    obtain ⟨pre, post, hpost, hspace⟩ := exists_trimCodes l
    refine ⟨pre, sign, cs, post, ?_, hspace, hsign, mt (congrArg _) hne, hcs, by rw [List.foldl_map]⟩
    rw [hl] at hpost
    rw [hpost, List.append_assoc pre sign cs]
  · rintro ⟨pre, sign, cs, post, rfl, hspace, hsign, hne, hcs, rfl⟩
    refine ⟨sign, cs, cs.map (· - 0x30), ?_, hsign, mt List.map_eq_nil_iff.mp hne,
      (forall₂_isDigitOf_ten_iff cs _).mpr ⟨hcs, rfl⟩, by rw [List.foldl_map]⟩
    rw [List.append_assoc pre sign cs, trimCodes_number hspace hsign hne hcs]

end Sys2Proof.Machine

namespace Sys2Proof.Machine.Asm

/-! ### The value parser -/

theorem charForm_eq_some_iff {tok : Text} {c : Char} : charForm tok = some c ↔ tok = ['\'', c, '\''] := by
  unfold charForm
  split
  · rename_i q c' q'
    rw [Option.ite_none_right_eq_some, Option.some.injEq]
    constructor
    · rintro ⟨⟨rfl, rfl⟩, rfl⟩
      rfl
    · intro h
      cases h
      exact ⟨⟨rfl, rfl⟩, rfl⟩
  · rename_i hlen
    exact iff_of_false nofun fun h => hlen _ _ _ h

theorem prefixForm_cons (base : Nat) (p : Char) (cs : Text) (h : (p, base) ∈ [('b', 2), ('x', 16), ('o', 8)]) :
    prefixForm ('0' :: p :: cs) = some (base, cs) := by
  simp only [List.mem_cons, Prod.mk.injEq, List.not_mem_nil, or_false] at h
  obtain ⟨rfl, rfl⟩ | ⟨rfl, rfl⟩ | ⟨rfl, rfl⟩ := h <;> rfl

theorem prefixForm_eq_none {tok : Text} (h : ∀ p cs, p ∈ ['b', 'x', 'o'] → tok ≠ '0' :: p :: cs) : prefixForm tok = none := by
  unfold prefixForm
  split
  · rename_i z p ds
    rw [ite_eq_right_iff]
    rintro rfl
    have hp : p ∉ ['b', 'x', 'o'] := fun hp => h p ds hp rfl
    simp only [List.mem_cons, List.not_mem_nil, or_false, not_or] at hp
    obtain ⟨hb, hx, ho⟩ := hp
    simp only [prefixBase, hb, hx, ho, if_false, Option.map_none]
  · rfl

theorem parseValue_of_prefix {base : Nat} {p : Char} {cs : Text} (h : (p, base) ∈ [('b', 2), ('x', 16), ('o', 8)]) :
    parseValue ('0' :: p :: cs) = (parseDigits base (codes cs)).map fun (n : Nat) => (n : Int) := by
  have hchar : charForm ('0' :: p :: cs) = none :=
    Option.eq_none_iff_forall_ne_some.mpr fun c hc => nomatch charForm_eq_some_iff.mp hc
  simp only [parseValue, hchar, prefixForm_cons base p cs h]

theorem parseValue_of_decimal {tok : Text} (hchar : ∀ c, tok ≠ ['\'', c, '\''])
    (hprefix : ∀ p cs, p ∈ ['b', 'x', 'o'] → tok ≠ '0' :: p :: cs) : parseValue tok = parseSigned (codes tok) := by
  have hchar' : charForm tok = none :=
    Option.eq_none_iff_forall_ne_some.mpr fun c hc => hchar c (charForm_eq_some_iff.mp hc)
  simp only [parseValue, hchar', prefixForm_eq_none hprefix]

theorem spells_iff (base : Nat) (cs : Text) (ds : List Nat) :
    spells base cs ds ↔ List.Forall₂ (isDigitOf base) (codes cs) ds :=
  List.forall₂_map_left_iff.symm

theorem codes_injective : Function.Injective codes := List.map_injective_iff.mpr fun _ _ h => Char.toNat_inj.mp h

theorem mem_signs_iff (sign : Text) : codes sign ∈ [[], [0x2B], [0x2D]] ↔ sign ∈ [[], ['+'], ['-']] := by
  have h : ([[], [0x2B], [0x2D]] : List (List Nat)) = List.map codes [[], ['+'], ['-']] := by decide
  rw [h, List.mem_map_of_injective codes_injective]

/-- Any token of neither of the other forms is an optional sign and decimal digits, or no value. -/
theorem parseValue_decimal_iff {tok : Text} {n : Int} (hchar : ∀ c, tok ≠ ['\'', c, '\''])
    (hprefix : ∀ p cs, p ∈ ['b', 'x', 'o'] → tok ≠ '0' :: p :: cs) :
    parseValue tok = some n ↔
      ∃ sign cs ds, tok = sign ++ cs ∧ sign ∈ [[], ['+'], ['-']] ∧ ds ≠ [] ∧ spells 10 cs ds ∧
        n = (if sign = ['-'] then -1 else 1) * ((ds.foldl (fun v d => v * 10 + d) 0 : Nat) : Int) := by
  have hminus : ∀ sign : Text, codes sign = [0x2D] ↔ sign = ['-'] := fun sign => codes_injective.eq_iff (b := ['-'])
  rw [parseValue_of_decimal hchar hprefix, parseSigned_eq_some_iff]
  constructor
  · rintro ⟨sign', cs', ds, htok, hsign, hne, hds, rfl⟩
    obtain ⟨sign, cs, rfl, rfl, rfl⟩ : ∃ sign cs, tok = sign ++ cs ∧ codes sign = sign' ∧ codes cs = cs' :=
      List.map_eq_append_iff.mp htok
    exact ⟨sign, cs, ds, rfl, (mem_signs_iff sign).mp hsign, hne, (spells_iff 10 cs ds).mpr hds, by simp only [hminus]⟩
  · rintro ⟨sign, cs, ds, rfl, hsign, hne, hds, rfl⟩
    exact ⟨codes sign, codes cs, ds, List.map_append, (mem_signs_iff sign).mpr hsign, hne, (spells_iff 10 cs ds).mp hds,
      by simp only [hminus]⟩

/-- Settles O49: by the form of the token. -/
theorem valueParserForms : Obligations.ValueParserForms := by
  refine ⟨fun c => ?_, fun p base cs n h => ?_, fun tok n hchar hprefix => ?_⟩
  · rw [parseValue, charForm_eq_some_iff.mpr rfl]
  · have hbase : base ≤ 16 := by
      simp only [List.mem_cons, Prod.mk.injEq, List.not_mem_nil, or_false] at h
      omega
    rw [parseValue_of_prefix h, Option.map_eq_some_iff]
    simp only [parseDigits_eq_some_iff hbase, spells_iff]
    constructor
    · rintro ⟨m, ⟨ds, hne, hds, rfl⟩, rfl⟩
      exact ⟨ds, hne, hds, rfl⟩
    · rintro ⟨ds, hne, hds, rfl⟩
      exact ⟨_, ⟨ds, hne, hds, rfl⟩, rfl⟩
  · exact parseValue_decimal_iff hchar hprefix

/-! ### An index in decimal (decision D29) -/

theorem decimalToken_spells (k : Nat) : spells 10 (decimalToken k) (minimalDigits 10 k) := by
  obtain ⟨hlt, -⟩ := minimalDigits_minimal (radix := 10) (by decide) k
  rw [spells, decimalToken, List.forall₂_map_left_iff, List.forall₂_same]
  intro d hd
  have hd := hlt d hd
  have hcode : digitCode false d = 0x30 + d := if_pos hd
  have hvalid : (0x30 + d).isValidChar := by unfold Nat.isValidChar; omega
  rw [hcode, Char.toNat_ofNat, if_pos hvalid]
  exact ⟨hd, .inl ⟨hd, rfl⟩⟩

/-- A digit string is of neither of the other forms. -/
theorem parseValue_of_spells {tok : Text} {ds : List Nat} (hne : ds ≠ []) (h : spells 10 tok ds) :
    parseValue tok = some ((ds.foldl (fun v d => v * 10 + d) 0 : Nat) : Int) := by
  have hdigit : ∀ c ∈ tok, 0x30 ≤ c.toNat ∧ c.toNat ≤ 0x39 := fun c hc =>
    ((forall₂_isDigitOf_ten_iff _ _).mp ((spells_iff 10 tok ds).mp h)).1 c.toNat (List.mem_map_of_mem hc)
  have hchar : ∀ c, tok ≠ ['\'', c, '\''] := by
    rintro c rfl
    exact absurd (hdigit '\'' (by simp)) (by decide)
  have hprefix : ∀ p cs, p ∈ ['b', 'x', 'o'] → tok ≠ '0' :: p :: cs := by
    rintro p cs hp rfl
    have hp' := hdigit p (by simp)
    simp only [List.mem_cons, List.not_mem_nil, or_false] at hp
    obtain rfl | rfl | rfl := hp <;> exact absurd hp' (by decide)
  exact (parseValue_decimal_iff hchar hprefix).mpr ⟨[], tok, ds, rfl, by simp, hne, h, by simp⟩

theorem parseValue_decimalToken (k : Nat) : parseValue (decimalToken k) = some (k : Int) := by
  obtain ⟨-, hval, hne, -⟩ := minimalDigits_minimal (radix := 10) (by decide) k
  rw [parseValue_of_spells hne (decimalToken_spells k), hval]

theorem mask_natCast (k : Nat) : mask (k : Int) = BitVec.ofNat 8 k := BitVec.ofInt_natCast 8 k

/-- Settles O50. -/
theorem resolvedIndexParsesBack : Obligations.ResolvedIndexParsesBack :=
  fun k => ⟨parseValue_decimalToken k, by rw [mask_natCast, BitVec.toNat_ofNat]⟩

end Sys2Proof.Machine.Asm
end

section
/-! PROOF. Labels, modes and words of the assembler (30_encoding.md Part B). -/

namespace Sys2Proof.Machine.Asm

/-! ### Pass 1 (R84, R86) -/

theorem lookupLabel_append_of_some {table : List Binding} {name : Text} {k : Nat} (h : lookupLabel table name = some k)
    (more : List Binding) : lookupLabel (table ++ more) name = some k := by
  obtain ⟨b, hb, rfl⟩ := Option.map_eq_some_iff.mp h
  rw [lookupLabel, List.find?_append, hb]
  rfl

theorem lookupLabel_append_new {table : List Binding} {name : Text} (h : lookupLabel table name = none) (k : Nat) :
    lookupLabel (table ++ [{ name := name, index := k }]) name = some k := by
  rw [lookupLabel, List.find?_append, Option.map_eq_none_iff.mp h]
  simp

theorem lookupLabel_append_other {table : List Binding} {name other : Text} (hne : other ≠ name) (k : Nat) :
    lookupLabel (table ++ [{ name := other, index := k }]) name = lookupLabel table name := by
  simp [lookupLabel, List.find?_append, hne]

/-- A label line binds a name that is not bound yet. -/
theorem bindLabels_label_eq_ok_iff {table table' : List Binding} {k n : Nat} {name : Text} {rest : List (Nat × Line)} :
    bindLabels table k ((n, .label name) :: rest) = .ok table' ↔
      lookupLabel table name = none ∧ bindLabels (table ++ [{ name := name, index := k }]) k rest = .ok table' := by
  rw [bindLabels]
  cases lookupLabel table name <;> simp

/-- Pass 1 in two parts: the second starts with the instruction lines of the first counted. -/
theorem bindLabels_append (table : List Binding) (k : Nat) (before after : List (Nat × Line)) :
    bindLabels table k (before ++ after) =
      (bindLabels table k before).bind fun t => bindLabels t (k + (instrLines before).length) after := by
  induction before generalizing table k with
  | nil => rfl
  | cons x before ih =>
    obtain ⟨n, line⟩ := x
    cases line with
    | blank => exact ih table k
    | instr m ops =>
      rw [List.cons_append, bindLabels, bindLabels, ih, instrLines, List.length_cons, Nat.add_right_comm, Nat.add_assoc k]
    | label name =>
      rw [List.cons_append, bindLabels, bindLabels, instrLines]
      cases lookupLabel table name with
      | some _ => rfl
      | none => exact ih _ k

/-- A name once bound keeps its index. -/
theorem bindLabels_keeps {table table' : List Binding} {k i : Nat} {lines : List (Nat × Line)} {name : Text}
    (h : bindLabels table k lines = .ok table') (hi : lookupLabel table name = some i) : lookupLabel table' name = some i := by
  induction lines generalizing table k with
  | nil => cases h; exact hi
  | cons x rest ih =>
    obtain ⟨n, line⟩ := x
    cases line with
    | blank => exact ih h hi
    | instr m ops => exact ih h hi
    | label other => exact ih (bindLabels_label_eq_ok_iff.mp h).2 (lookupLabel_append_of_some hi _)

/-- A name that no label line binds is bound by nothing else. -/
theorem bindLabels_unbound {table table' : List Binding} {k : Nat} {lines : List (Nat × Line)} {name : Text}
    (h : bindLabels table k lines = .ok table') (hname : ∀ n, (n, Line.label name) ∉ lines) :
    lookupLabel table' name = lookupLabel table name := by
  induction lines generalizing table k with
  | nil => cases h; rfl
  | cons x rest ih =>
    obtain ⟨n, line⟩ := x
    have hrest : ∀ n, (n, Line.label name) ∉ rest := fun n hn => hname n (List.mem_cons_of_mem _ hn)
    cases line with
    | blank => exact ih h hrest
    | instr m ops => exact ih h hrest
    | label other =>
      have hne : other ≠ name := fun e => hname n (by rw [e]; exact List.mem_cons_self)
      exact (ih (bindLabels_label_eq_ok_iff.mp h).2 hrest).trans (lookupLabel_append_other hne k)

/-- At a label line its name is new, and it is bound to the number of instruction lines before it. -/
theorem bindLabels_at_label {table : List Binding} {before after : List (Nat × Line)} {n : Nat} {name : Text}
    (h : bindLabels [] 0 (before ++ (n, .label name) :: after) = .ok table) :
    (∃ t, bindLabels [] 0 before = .ok t ∧ lookupLabel t name = none) ∧
      lookupLabel table name = some (instrLines before).length := by
  rw [bindLabels_append, Outcome.bind_eq_ok_iff, Nat.zero_add] at h
  obtain ⟨t, ht, hafter⟩ := h
  obtain ⟨hnew, hrest⟩ := bindLabels_label_eq_ok_iff.mp hafter
  exact ⟨⟨t, ht, hnew⟩, bindLabels_keeps hrest (lookupLabel_append_new hnew _)⟩

/-- No label line before another binds the same name. -/
theorem bindLabels_no_earlier {table : List Binding} {before after : List (Nat × Line)} {m n : Nat} {name : Text}
    (h : bindLabels [] 0 (before ++ (n, .label name) :: after) = .ok table) : (m, Line.label name) ∉ before := by
  intro hm
  obtain ⟨first, second, rfl⟩ := List.append_of_mem hm
  obtain ⟨⟨t, ht, hnew⟩, -⟩ := bindLabels_at_label h
  obtain ⟨-, hbound⟩ := bindLabels_at_label ht
  exact nomatch hnew.symm.trans hbound

/-! ### Both passes -/

theorem exists_table_of_assembleInstrs {src : List Text} {is : List Instr} (h : assembleInstrs src = .ok is) :
    ∃ table ls, bindLabels [] 0 (readLines src) = .ok table ∧
      resolveLines table (instrLines (readLines src)) = .ok ls ∧ ls.map encodeLine = is.map .ok := by
  obtain ⟨ls, hres, henc⟩ := assembleInstrs_eq_ok_iff.mp h
  obtain ⟨table, htable, hls⟩ := resolve_eq_ok_iff.mp hres
  exact ⟨table, ls, htable, hls, henc⟩

/-- Where every outcome of a list is a value, so is the one in each place. -/
theorem exists_getElem?_of_map_eq_ok {α β : Type} {g : α → Outcome β} {as : List α} {bs : List β}
    (h : as.map g = bs.map .ok) {k : Nat} {a : α} (ha : as[k]? = some a) : ∃ b, bs[k]? = some b ∧ g a = .ok b := by
  have hk := congrArg (·[k]?) h
  simp only [List.getElem?_map, ha, Option.map_some] at hk
  obtain ⟨b, hb, hg⟩ := Option.map_eq_some_iff.mp hk.symm
  exact ⟨b, hb, hg.symm⟩

/-- A jump of the source that resolves has its label in the table, and the label's index in the label's place. -/
theorem resolveLine_jump {table : List Binding} {lines : List (Nat × Line)} {l l' : InstrLine} {name : Text} {ops : List Text}
    (hl : l ∈ instrLines lines) (hjump : isJumpToken l.mnemonic = true) (hops : l.operands = name :: ops)
    (h : resolveLine table l = .ok l') :
    ∃ k, lookupLabel table name = some k ∧ l'.mnemonic = l.mnemonic ∧ l'.operands = decimalToken k :: ops := by
  obtain ⟨hno, -⟩ | ⟨-, first, ops', k, hops', hk, rfl⟩ := resolveLine_ok h
  · exact nomatch hno.symm.trans hjump
  · cases hops.symm.trans hops'
    have hlabel : l.labelOf name = name := by rw [InstrLine.labelOf, instrLines_label hl]
    exact ⟨k, hlabel ▸ hk, rfl, rfl⟩

/-- Settles O53: the name stays out of the table, and its line does not resolve. -/
theorem undefinedLabelNeverAssembles : Obligations.UndefinedLabelNeverAssembles := by
  intro src l name ops file hl hjump hops hname h
  obtain ⟨is, his, -⟩ := assemble_eq_ok_iff.mp h
  obtain ⟨table, ls, htable, hls, -⟩ := exists_table_of_assembleInstrs his
  obtain ⟨k, hk⟩ := List.mem_iff_getElem?.mp hl
  obtain ⟨l', -, hl'⟩ := exists_getElem?_of_map_eq_ok (resolveLines_eq_ok_iff.mp hls) hk
  obtain ⟨i, hi, -⟩ := resolveLine_jump hl hjump hops hl'
  exact nomatch (bindLabels_unbound htable hname).symm.trans hi

/-- Settles O54: of two label lines of one name the later finds the name bound. -/
theorem duplicateLabelNeverAssembles : Obligations.DuplicateLabelNeverAssembles := by
  intro src name m n file hmn hm hn h
  obtain ⟨is, his, -⟩ := assemble_eq_ok_iff.mp h
  obtain ⟨table, ls, htable, -⟩ := exists_table_of_assembleInstrs his
  obtain ⟨before, after, hsrc⟩ := List.append_of_mem hm
  rw [hsrc] at htable hn
  obtain hn | hn := List.mem_append.mp hn
  · exact bindLabels_no_earlier htable hn
  · obtain hn | hn := List.mem_cons.mp hn
    · exact hmn (congrArg Prod.fst hn).symm
    · obtain ⟨between, last, rfl⟩ := List.append_of_mem hn
      rw [← List.cons_append, ← List.append_assoc] at htable
      exact bindLabels_no_earlier (m := m) htable (List.mem_append_right _ List.mem_cons_self)

/-! ### The A byte of a jump (R85, R89) -/

theorem parseMnemonic_isJump {tok : Text} {m : Mnemonic} (hjump : isJumpToken tok = true) (hm : parseMnemonic tok = some m) :
    m.isJump = true := by
  simpa only [isJumpToken, hm] using hjump

/-- A jump's first operand is its word's A byte. -/
theorem instrOf_jump {m : Mnemonic} {tok : Text} {ops : List Text} {shape : Shape} {i : Instr} (hjump : m.isJump = true)
    (hshape : shapeOf m (tok :: ops) = some shape) (hi : instrOf shape = some i) :
    ∃ a, operand tok = some a ∧ (encode i)[1]? = some a := by
  cases m with
  | set | mov | add | sub | read | put | call | exit => cases hjump
  | jmp =>
    simp only [shapeOf] at hshape
    split at hshape <;> cases hshape
    rename_i hops
    cases hops
    obtain ⟨a, ha, rfl⟩ := Option.map_eq_some_iff.mp hi
    exact ⟨a, ha, rfl⟩
  | jeq | jgt =>
    simp only [shapeOf] at hshape
    split at hshape <;> cases hshape
    rename_i hops
    cases hops
    simp only [instrOf, Option.bind_eq_some_iff, Option.map_eq_some_iff] at hi
    obtain ⟨a, ha, b, -, c, -, rfl⟩ := hi
    exact ⟨a, ha, rfl⟩

theorem operand_decimalToken (k : Nat) : operand (decimalToken k) = some (BitVec.ofNat 8 k) := by
  rw [operand, parseValue_decimalToken, Option.map_some, mask_natCast]

/-- Settles O55: the jump's line resolves to the index pass 1 bound its label to, and encodes it. -/
theorem jumpEncodesLabelIndex : Obligations.JumpEncodesLabelIndex := by
  intro src is before after n k name l ops his hsrc hk hjump hops
  obtain ⟨table, ls, htable, hls, henc⟩ := exists_table_of_assembleInstrs his
  obtain ⟨l', hl', hres⟩ := exists_getElem?_of_map_eq_ok (resolveLines_eq_ok_iff.mp hls) hk
  obtain ⟨i, hi, hencode⟩ := exists_getElem?_of_map_eq_ok henc hl'
  obtain ⟨index, hindex, hmnemonic, hops'⟩ := resolveLine_jump (List.mem_of_getElem? hk) hjump hops hres
  rw [hsrc] at htable
  obtain ⟨-, hbound⟩ := bindLabels_at_label htable
  obtain rfl := Option.some.inj (hindex.symm.trans hbound)
  obtain ⟨m, shape, hm, hshape, hinstr⟩ := encodeLine_ok hencode
  rw [hmnemonic] at hm
  rw [hops'] at hshape
  obtain ⟨a, ha, hbyte⟩ := instrOf_jump (parseMnemonic_isJump hjump hm) hshape hinstr
  rw [operand_decimalToken] at ha
  exact ⟨i, hi, ha ▸ hbyte⟩

/-! ### Resolving twice (log 25) -/

/-- A resolved line resolves to itself: it looks its remembered name up again. -/
theorem resolveLine_resolved {table : List Binding} {l l' : InstrLine} (h : resolveLine table l = .ok l') :
    resolveLine table l' = .ok l' := by
  obtain ⟨-, rfl⟩ | ⟨hjump, first, ops, k, -, hk, rfl⟩ := resolveLine_ok h
  · exact h
  · simp only [resolveLine, hjump, if_true, InstrLine.labelOf]
    rw [InstrLine.labelOf] at hk
    simp only [hk]

/-- Settles O57. -/
theorem resolutionIsIdempotent : Obligations.ResolutionIsIdempotent := by
  intro table ls ls' h
  rw [resolveLines_eq_ok_iff] at h ⊢
  refine List.map_congr_left fun l' hl' => ?_
  have hmem : Outcome.ok l' ∈ ls.map (resolveLine table) := h ▸ List.mem_map_of_mem hl'
  obtain ⟨l, -, hl⟩ := List.mem_map.mp hmem
  exact resolveLine_resolved hl

/-! ### Modes (decisions D23, D33) -/

theorem upperChar_toNat (c : Char) :
    (upperChar c).toNat = if 0x61 ≤ c.toNat ∧ c.toNat ≤ 0x7A then c.toNat - 0x20 else c.toNat := by
  have hle : ('a' ≤ c ∧ c ≤ 'z') ↔ (0x61 ≤ c.toNat ∧ c.toNat ≤ 0x7A) := Iff.rfl
  rw [upperChar, if_congr hle rfl rfl]
  split
  · have hvalid : (c.toNat - 0x20).isValidChar := by unfold Nat.isValidChar; omega
    rw [Char.toNat_ofNat, if_pos hvalid]
  · rfl

/-- Two characters fold to a capital: itself and its small letter. -/
theorem upperChar_eq_iff {capital small : Char} (hcapital : 0x41 ≤ capital.toNat ∧ capital.toNat ≤ 0x5A)
    (hsmall : small.toNat = capital.toNat + 0x20) (c : Char) : upperChar c = capital ↔ c = capital ∨ c = small := by
  simp only [← Char.toNat_inj, upperChar_toNat, hsmall]
  split <;> omega

theorem upper_eq_singleton_iff {capital small : Char} (hcapital : 0x41 ≤ capital.toNat ∧ capital.toNat ≤ 0x5A)
    (hsmall : small.toNat = capital.toNat + 0x20) (m : Text) : upper m = [capital] ↔ m = [capital] ∨ m = [small] := by
  rw [upper, List.map_eq_singleton_iff]
  simp only [upperChar_eq_iff hcapital hsmall]
  constructor
  · rintro ⟨c, rfl, rfl | rfl⟩
    · exact .inl rfl
    · exact .inr rfl
  · rintro (rfl | rfl)
    · exact ⟨capital, rfl, .inl rfl⟩
    · exact ⟨small, rfl, .inr rfl⟩

theorem shapeOf_readN_iff (d m : Text) (sh : Shape) :
    shapeOf .read [d, m] = some sh ↔ (m = ['N'] ∨ m = ['n']) ∧ sh = .readN d := by
  rw [shapeOf, Option.ite_none_right_eq_some, upper_eq_singleton_iff (small := 'n') (by decide) rfl, Option.some.injEq,
    eq_comm (a := sh)]

theorem shapeOf_readS_iff (d m n : Text) (sh : Shape) :
    shapeOf .read [d, m, n] = some sh ↔ (m = ['S'] ∨ m = ['s']) ∧ sh = .readS d n := by
  rw [shapeOf, Option.ite_none_right_eq_some, upper_eq_singleton_iff (small := 's') (by decide) rfl, Option.some.injEq,
    eq_comm (a := sh)]

theorem shapeOf_put_iff (d m n : Text) (sh : Shape) :
    shapeOf .put [d, m, n] = some sh ↔ (m = ['N'] ∧ ∃ c, n = [c] ∧ sh = .putN d c) ∨ (m = ['S'] ∧ sh = .putS d n) := by
  simp only [shapeOf]
  split
  · rename_i hm
    subst hm
    split
    · simp [eq_comm]
    · rename_i hn
      simpa using fun c hc => absurd hc (hn c)
  · rename_i hm
    simp [hm, eq_comm]

/-- Settles O56. -/
theorem modeTokenCaseAsymmetry : Obligations.ModeTokenCaseAsymmetry := by
  intro d n
  refine ⟨shapeOf_readN_iff d, fun m => shapeOf_readS_iff d m n, fun m => shapeOf_put_iff d m n, fun ops h => ?_,
    fun ops h => ?_⟩
  · simp only [shapeOf] at h
    split at h
    · exact .inl rfl
    · exact .inr rfl
    · exact absurd rfl h
  · simp only [shapeOf] at h
    split at h
    · rfl
    · exact absurd rfl h

/-! ### The file's words, and a failed assembly -/

theorem drop_flatMap_encode (is : List Instr) (j : Nat) : (is.flatMap encode).drop (4 * j) = (is.drop j).flatMap encode := by
  induction is generalizing j with
  | nil => simp
  | cons i is ih =>
    cases j with
    | zero => rfl
    | succ j =>
      rw [List.flatMap_cons, List.drop_succ_cons, ← ih j, Nat.mul_succ, Nat.add_comm, ← List.drop_drop,
        List.drop_left' (encode_length i)]

/-- At every fourth byte the instructions' words begin. -/
theorem memRead_flatMap_encode {is : List Instr} {j : Nat} (h : j < is.length) :
    memRead (is.flatMap encode) (4 * j) 4 = encode is[j] := by
  rw [memRead, drop_flatMap_encode, List.drop_eq_getElem_cons h, List.flatMap_cons, List.take_left' (encode_length _)]

/-- Settles O52: an aligned program counter stands at the start of an instruction's word. -/
theorem assembledWordsAlwaysDecode : Obligations.AssembledWordsAlwaysDecode := by
  intro src file code f h hstream hcode hpc hin
  obtain ⟨is, his, rfl⟩ := assemble_eq_ok_iff.mp h
  obtain rfl := Option.some.inj ((streamOf_header _).symm.trans hstream)
  obtain ⟨j, hj⟩ := Nat.dvd_of_mod_eq_zero hpc
  rw [flatMap_encode_length] at hin
  have hlt : j < is.length := by omega
  have hwf := assembleInstrs_wellFormed his _ (List.getElem_mem hlt)
  have hdecode := decodeOfEncodeIsIdentity is[j] [] hwf
  rw [List.append_nil, ← memRead_flatMap_encode hlt, ← hj, ← hcode] at hdecode
  exact ⟨is[j], hdecode, hwf⟩

/-- Settles O60. -/
theorem failedAssemblyExitsNonZero : Obligations.FailedAssemblyExitsNonZero := by
  intro src e h
  refine ⟨failureStatus e, by rw [h]; rfl, fun hzero => ?_⟩
  have hval := failureStatus_toNat e
  rw [hzero] at hval
  cases hval

end Sys2Proof.Machine.Asm
end
